-- ==== Sys2Proof/Word.lean ====
section
/-! DEFINITION. The words the ports carry (10_state.md R21, 00_scope.md R8) and what one transfer on each channel carries. -/

namespace Sys2Proof

/-- A 64-bit operand or result port: `req_a`, `req_b`, `resp_lo`, `resp_hi` (R21). -/
abbrev Word := BitVec 64

/-- A 32-bit operand of a `.W` command (30_encoding.md R60). -/
abbrev Half := BitVec 32

/-- The command byte on `req_cmd` (R21, 30_encoding.md R58). -/
abbrev Cmd := BitVec 8

/-- What one transfer on the request channel carries (R21, R57): the command byte and both operands. -/
structure Request where
  cmd : Cmd
  a : Word
  b : Word
  deriving DecidableEq, Repr, Inhabited

/-- What one transfer on the response channel carries (R21, R41). `err` is the 1-bit `resp_err`. -/
structure Response where
  lo : Word
  hi : Word
  err : Bool
  deriving DecidableEq, Repr, Inhabited

end Sys2Proof
end

