-- ==== Sys2Proof/Config.lean ====
section
/-! DEFINITION. What is fixed when the block is built (00_scope.md R7) and the free values: the draws (R14). -/

namespace Sys2Proof

/-- `MUL_IMPL` (R7): the 32x32->64 multiplier's style, "unobservable except through latency". -/
inductive MulImpl where
  | combinational
  | pipelined
  deriving DecidableEq, Repr, Inhabited

/-- `PDEP_IMPL` (R7): the fallback loop's style, "unobservable except through latency". -/
inductive PdepImpl where
  | oneBitPerCycle
  | unrolled
  deriving DecidableEq, Repr, Inhabited

/-- The parameters R7 leaves OPEN. `DEPTH >= 1` holds by construction: `extraEntries` counts the entries
beyond the first. -/
structure Build where
  extraEntries : Nat
  mulImpl : MulImpl
  pdepImpl : PdepImpl
  deriving DecidableEq, Repr, Inhabited

/-- `DEPTH`, the most commands that may be accepted and not yet delivered (R7, 10_state.md R22). -/
def Build.depth (b : Build) : Nat := b.extraEntries + 1

/-- The draws of one clock cycle (R14). Nothing constrains a field. -/
structure Draws where
  /-- `req_ready` where `Q` has room (10_state.md R23) -/
  ready : Bool
  /-- `done` of an entry accepted at this edge (R31) -/
  acceptDone : Bool
  /-- the positions, counted in `Q` after this edge's delivery, whose entries complete at this edge (R32;
  DESIGN CHOICE of the numbering, log entry 13) -/
  completing : List Nat
  /-- what the response fields show while `resp_valid = 0` (R37) -/
  idle : Response
  deriving DecidableEq, Repr, Inhabited

namespace Config

/-- The parameters of the block at hand: a value of R7's OPEN parameters that nothing in Lean can evaluate. -/
opaque build : Build

/-- The draws of each clock cycle after the script of the state has run out: free values, by cycle number. -/
opaque draws : Nat → Draws

end Config

end Sys2Proof
end

