-- ==== Sys2Proof/Syntax.lean ====
section
/-! DEFINITION. The 14 commands (30_encoding.md R62) and the lines of a command script (R69). -/

namespace Sys2Proof

/-- The legal commands, one for each row of the opcode table. A command's operands are no part of it: they
arrive beside the command byte (R57, R64). -/
inductive Instr where
  /-- DIGITS.W, 40_digits.md R74 -/
  | digitsW
  /-- DIGITS.D, R75 -/
  | digitsD
  /-- CTZ.W, 41_bitscan.md R84 -/
  | ctzW
  /-- CTZ.D, R85 -/
  | ctzD
  /-- CLZ.W, R86 -/
  | clzW
  /-- CLZ.D, R87 -/
  | clzD
  /-- POPC.W, 42_popcount.md R90 -/
  | popcW
  /-- POPC.D, R91 -/
  | popcD
  /-- MULW.W, 43_multiply.md R97 -/
  | mulwW
  /-- MULW.D, R98 -/
  | mulwD
  /-- PDEP.W, 44_pdep_pext.md R108 -/
  | pdepW
  /-- PDEP.D, R109 -/
  | pdepD
  /-- PEXT.W, R110 -/
  | pextW
  /-- PEXT.D, R111 -/
  | pextD
  deriving DecidableEq, Repr, Inhabited

/-- The function a command selects, in the order of `FUNC` (R59). -/
inductive Func where
  | digits
  | ctz
  | clz
  | popc
  | mulw
  | pdep
  | pext
  deriving DecidableEq, Repr, Inhabited

/-- The operand width a command selects (R60). -/
inductive Width where
  /-- N = 32, suffix `.W` -/
  | w
  /-- N = 64, suffix `.D` -/
  | d
  deriving DecidableEq, Repr, Inhabited

/-- N (R60). -/
def Width.bits : Width → Nat
  | .w => 32
  | .d => 64

/-- The command of a function at a width: every function exists at both (R60). -/
def Instr.of : Func → Width → Instr
  | .digits, .w => .digitsW
  | .digits, .d => .digitsD
  | .ctz, .w => .ctzW
  | .ctz, .d => .ctzD
  | .clz, .w => .clzW
  | .clz, .d => .clzD
  | .popc, .w => .popcW
  | .popc, .d => .popcD
  | .mulw, .w => .mulwW
  | .mulw, .d => .mulwD
  | .pdep, .w => .pdepW
  | .pdep, .d => .pdepD
  | .pext, .w => .pextW
  | .pext, .d => .pextD

/-- The function of a command (R62). -/
def Instr.func : Instr → Func
  | .digitsW | .digitsD => .digits
  | .ctzW | .ctzD => .ctz
  | .clzW | .clzD => .clz
  | .popcW | .popcD => .popc
  | .mulwW | .mulwD => .mulw
  | .pdepW | .pdepD => .pdep
  | .pextW | .pextD => .pext

/-- The operand width of a command (R62). -/
def Instr.width : Instr → Width
  | .digitsW | .ctzW | .clzW | .popcW | .mulwW | .pdepW | .pextW => .w
  | .digitsD | .ctzD | .clzD | .popcD | .mulwD | .pdepD | .pextD => .d

/-- The functions that use `b` (R62, column "operands used"). -/
def Func.usesB : Func → Bool
  | .digits | .ctz | .clz | .popc => false
  | .mulw | .pdep | .pext => true

/-- One line of a command script (R69), its literals as written. -/
inductive ScriptLine where
  /-- `<mnemonic> <a>[, <b>]` -/
  | command (i : Instr) (a : Nat) (b : Option Nat)
  /-- `.cmd <byte> <a>, <b>`, the form for an illegal command -/
  | illegal (byte a b : Nat)
  deriving DecidableEq, Repr, Inhabited

end Sys2Proof
end

