-- ==== Sys2Proof/WellFormed.lean ====
section
/-! DEFINITION. Which terms of the syntax are well-formed. A value of `Instr` carries no field, so each of the 14
is (30_encoding.md R68: no further forms); a script line has literals and operands to check (R69). -/

namespace Sys2Proof

/-- Every command is well-formed: its byte is fixed (R62) and it has no field to get wrong. -/
def Instr.wellFormed (_ : Instr) : Bool := true

/-- An operand literal of at most 64 bits (R69). -/
def literalFits (v : Nat) : Bool := decide (v < 2 ^ 64)

/-- The byte values that name no function: 0x00, 0x08 and 0x10 to 0xFF (R66). -/
def illegalByte (c : Nat) : Bool := decide (c < 256) && (decide (c = 0) || decide (c = 8) || decide (16 ≤ c))

/-- R69: literals of at most 64 bits, `b` written exactly for the commands that use it, `.cmd` for an illegal byte. -/
def ScriptLine.wellFormed : ScriptLine → Bool
  | .command i a none => literalFits a && !i.func.usesB
  | .command i a (some b) => literalFits a && literalFits b && i.func.usesB
  | .illegal c a b => illegalByte c && literalFits a && literalFits b

end Sys2Proof
end

