-- ==== Sys2Proof/Decode.lean ====
section
/-! DEFINITION. The command decoder (30_encoding.md R63), the encoder (R62), and the script's requests (R69). -/

namespace Sys2Proof

/-- Why a byte or a request is no command. -/
inductive DecodeError where
  /-- `RSV != 0` (R61, R66): illegal -/
  | reservedBits
  /-- `FUNC = 0` (R59, R66): illegal -/
  | noFunction
  /-- a legal one-operand command with `b` not 0: the ports carry it (R64), the script syntax cannot write it (R69) -/
  | unwritableOperand
  deriving DecidableEq, Repr

/-- `cmd[7:4]` (R58). -/
def rsvField (c : Cmd) : BitVec 4 := c.extractLsb' 4 4

/-- `cmd[3]` (R58). -/
def wField (c : Cmd) : Bool := c.getLsbD 3

/-- `cmd[2:0]` (R58). -/
def funcField (c : Cmd) : BitVec 3 := c.extractLsb' 0 3

/-- R59: which function `FUNC` selects; 0 selects none. -/
def funcOf (f : BitVec 3) : Option Func :=
  if f = 1#3 then some .digits
  else if f = 2#3 then some .ctz
  else if f = 3#3 then some .clz
  else if f = 4#3 then some .popc
  else if f = 5#3 then some .mulw
  else if f = 6#3 then some .pdep
  else if f = 7#3 then some .pext
  else none

/-- R60: which width `W` selects. -/
def widthOf (w : Bool) : Width := if w then .d else .w

/-- `DECODE` of R63, with the cause of the illegal bytes named. -/
def decodeCmd (c : Cmd) : Except DecodeError Instr :=
  if rsvField c = 0#4 then
    match funcOf (funcField c) with
    | some f => .ok (Instr.of f (widthOf (wField c)))
    | none => .error .noFunction
  else .error .reservedBits

/-- The command byte of each command, from the table of R62. -/
def encode : Instr → Cmd
  | .digitsW => 0x01#8
  | .digitsD => 0x09#8
  | .ctzW => 0x02#8
  | .ctzD => 0x0A#8
  | .clzW => 0x03#8
  | .clzD => 0x0B#8
  | .popcW => 0x04#8
  | .popcD => 0x0C#8
  | .mulwW => 0x05#8
  | .mulwD => 0x0D#8
  | .pdepW => 0x06#8
  | .pdepD => 0x0E#8
  | .pextW => 0x07#8
  | .pextD => 0x0F#8

/-- The mnemonic of each command, from the table of R62. -/
def mnemonic : Instr → String
  | .digitsW => "DIGITS.W"
  | .digitsD => "DIGITS.D"
  | .ctzW => "CTZ.W"
  | .ctzD => "CTZ.D"
  | .clzW => "CLZ.W"
  | .clzD => "CLZ.D"
  | .popcW => "POPC.W"
  | .popcD => "POPC.D"
  | .mulwW => "MULW.W"
  | .mulwD => "MULW.D"
  | .pdepW => "PDEP.W"
  | .pdepD => "PDEP.D"
  | .pextW => "PEXT.W"
  | .pextD => "PEXT.D"

/-- The request a script line stands for; a `b` that is not written is sent as 0 (R69). -/
def encodeLine : ScriptLine → Request
  | .command i a b => ⟨encode i, BitVec.ofNat 64 a, BitVec.ofNat 64 (b.getD 0)⟩
  | .illegal c a b => ⟨BitVec.ofNat 8 c, BitVec.ofNat 64 a, BitVec.ofNat 64 b⟩

/-- The script line that writes a request, where the script syntax has one (R69; DESIGN CHOICE, log entry 19). -/
def decodeLine (r : Request) : Except DecodeError ScriptLine :=
  match decodeCmd r.cmd with
  | .ok i =>
    if i.func.usesB then .ok (.command i r.a.toNat (some r.b.toNat))
    else if r.b = 0#64 then .ok (.command i r.a.toNat none)
    else .error .unwritableOperand
  | .error _ => .ok (.illegal r.cmd.toNat r.a.toNat r.b.toNat)

/-- The command read from a table word: a command is one byte (R57), so a word of another length is none. -/
def decodeTableWord (nbits w : Nat) : Option Instr :=
  if nbits = 8 ∧ w < 256 then
    match decodeCmd (BitVec.ofNat 8 w) with
    | .ok i => some i
    | .error _ => none
  else none

end Sys2Proof
end

