-- ==== Sys2Proof/Machine/State.lean ====
section
/-! DEFINITION. The machine's state as plain data, the ways a step can stop, and the state after reset. -/

namespace Sys2Proof.Machine

/-- One entry of `Q` (10_state.md R22). -/
structure Entry where
  cmd : Cmd
  a : Word
  b : Word
  done : Bool
  deriving DecidableEq, Repr, Inhabited

/-- The command and operands an entry was accepted with. -/
def Entry.request (e : Entry) : Request := ⟨e.cmd, e.a, e.b⟩

/-- The input ports in one clock cycle (R21). -/
structure HostPorts where
  rst : Bool
  reqValid : Bool
  req : Request
  respReady : Bool
  deriving DecidableEq, Repr, Inhabited

/-- One clock cycle as far as the core does not decide it: what the host drives, and the draws (R14). -/
structure ClockCycle where
  host : HostPorts
  draws : Draws
  deriving DecidableEq, Repr, Inhabited

/-- The machine: the core's queue (R22), its parameters (00_scope.md R7), and the host around it (R20). -/
structure State where
  /-- the block's parameters (R7); no step changes them (10_state.md R27) -/
  build : Build
  /-- `Q`, oldest first (R22) -/
  queue : List Entry
  /-- the request offered at the last edge and not accepted there, which the host must hold (R136) -/
  offer : Option Request
  /-- the model's own (DESIGN CHOICE, log entry 2): edges so far, the index of the free draws -/
  cycle : Nat
  /-- the model's own (DESIGN CHOICE, log entries 2 and 4): what the coming cycles bring, next first -/
  script : List ClockCycle
  /-- the host's record (DESIGN CHOICE, log entry 5): requests accepted since the last reset, oldest first (R36) -/
  accepted : List Request
  /-- the host's record (log entry 5): responses delivered since the last reset, oldest first (R36) -/
  delivered : List Response
  /-- the host's record (log entry 5): responses delivered before the last reset, oldest first -/
  earlier : List Response
  deriving DecidableEq, Repr

/-- The machine stops with a fault. -/
inductive Fault where
  /-- Raised by a meaning asked to deliver where no response is offered (empty queue, or oldest entry not done).
  `step` never asks it to. DESIGN CHOICE, log entry 12. Safe: no claim about a next state can be proved there. -/
  | noResponseOffered
  deriving DecidableEq, Repr

/-- No meaning is given. -/
inductive Refusal where
  /-- Raised by an arm of `exec` whose command has no meaning yet; no arm does. Safe. -/
  | notModelled (mnemonic : String)
  /-- Raised by `step` where the host withdraws or changes a request it offered and the core has not accepted,
  with `rst = 0`: "A model gives a host that breaks this duty no move" (R136). DESIGN CHOICE, log entry 6. Safe: nothing is claimed of such a host. -/
  | requestNotHeld
  deriving DecidableEq, Repr

/-- How every meaning and the step answer. -/
abbrev Result := Host.Outcome State Fault Refusal

/-- The state after reset (R35): `Q` empty and nothing offered; the records empty; no cycle scripted; the
parameters those of the block at hand (DESIGN CHOICE, log entries 2 to 5). -/
def State.reset : State where
  build := Config.build
  queue := []
  offer := none
  cycle := 0
  script := []
  accepted := []
  delivered := []
  earlier := []

end Sys2Proof.Machine
end

