-- ==== Sys2Proof/Machine/Operands.lean ====
section
/-! DEFINITION. Operand assembly by truncation (30_encoding.md R64) and result assembly by zero extension (R65). -/

namespace Sys2Proof.Machine

/-- `x[31:0]`: what a `.W` command computes on; the upper half is ignored (R64). -/
def lowHalf (x : Word) : Half := x.setWidth 32

/-- `x[63:32]`. -/
def highHalf (x : Word) : Half := x.extractLsb' 32 32

/-- `zext_64(v)` (00_scope.md R9): a result of N bits on a 64-bit port (R65). -/
def zext {n : Nat} (v : BitVec n) : Word := v.setWidth 64

/-- A count on a 64-bit port (R65). -/
def countWord (n : Nat) : Word := BitVec.ofNat 64 n

/-- `{hi, lo}`: concatenation, the first in the upper bits (00_scope.md R9). -/
def concatHalves (hi lo : Half) : Word := hi ++ lo

end Sys2Proof.Machine
end

