-- ==== Sys2Proof/Machine/Flags.lean ====
section
/-! DEFINITION. The block has no flags (10_state.md R26): the one status bit is `err`, a field of each response.
Here are the three shapes a response takes (30_encoding.md R65, 60_exceptions.md R115). -/

namespace Sys2Proof.Machine

/-- `err` of a legal command (R65). -/
def errLegal : Bool := false

/-- `err` of an illegal command (R115). -/
def errIllegal : Bool := true

/-- A function with one result: `lo` carries it, `hi` is 0 (R65). -/
def singleResponse (lo : Word) : Response := ⟨lo, 0#64, errLegal⟩

/-- The wide multiply: the low half and the high half of the product (R65). -/
def pairResponse (lo hi : Word) : Response := ⟨lo, hi, errLegal⟩

/-- The response to an illegal command (R115). -/
def illegalResponse : Response := ⟨0#64, 0#64, errIllegal⟩

end Sys2Proof.Machine
end

