-- ==== Sys2Proof/Machine/Ops.lean ====
section
/-! DEFINITION. The named operations on the state: delivery, completion, acceptance and reset (10_state.md R31-R33,
70_reset_and_hazards.md R129), and the one error, IllegalCommand (60_exceptions.md R114, R115). -/

namespace Sys2Proof.Machine

/-- The oldest entry leaves `Q` and the host receives `r` (R33). -/
def State.answer (s : State) (r : Response) : State :=
  { s with queue := s.queue.tail, delivered := s.delivered ++ [r] }

/-- Delivery of the oldest entry's response, `f` of its two operands (R33). It is enabled where a response is
offered: `Q` holds an entry and the oldest is done (R23). -/
def deliver (f : Word → Word → Response) (s : State) : Result :=
  match s.queue with
  | e :: _ => if e.done then .next (s.answer (f e.a e.b)) else .fault .noResponseOffered
  | [] => .fault .noResponseOffered

/-- `raise IllegalCommand` (00_scope.md R10): the command is answered in its turn with the error response and
changes nothing else (R115). The block has no trap entry and no return from one (R119, R120). -/
def raiseIllegal (s : State) : Result := deliver (fun _ _ => illegalResponse) s

/-- Completion: the entries at the positions of `ks` become done, counting from `k`; none ever ceases to be (R32). -/
def completeEntries (ks : List Nat) : Nat → List Entry → List Entry
  | _, [] => []
  | k, e :: q => (if k ∈ ks then { e with done := true } else e) :: completeEntries ks (k + 1) q

/-- Completion of the entries at the positions of `ks` in `Q` (R32). -/
def State.complete (s : State) (ks : List Nat) : State :=
  { s with queue := completeEntries ks 0 s.queue }

/-- Acceptance: the request is captured whole as the youngest entry, and the host has no request left to hold (R31). -/
def State.accept (s : State) (r : Request) (done : Bool) : State :=
  { s with queue := s.queue ++ [⟨r.cmd, r.a, r.b, done⟩], offer := none, accepted := s.accepted ++ [r] }

/-- What the host has on offer after an edge that accepted nothing (R136). -/
def State.setOffer (s : State) (o : Option Request) : State := { s with offer := o }

/-- The effect of an edge with `rst = 1` (R129): `Q` is emptied. The host's duty to hold its request ends (R130), and
its record of what this reset ends starts anew (DEDUCED, log entry 17). -/
def State.clear (s : State) : State :=
  { s with queue := [], offer := none, accepted := [], delivered := [], earlier := s.earlier ++ s.delivered }

/-- One more edge has passed. -/
def State.tick (s : State) : State := { s with cycle := s.cycle + 1 }

/-- The script moves on by one cycle. -/
def State.popScript (s : State) : State := { s with script := s.script.tail }

end Sys2Proof.Machine
end

