-- ==== Sys2Proof/Machine/BitScan.lean ====
section
/-! DEFINITION. Count trailing and leading zeros: CTZ.W, CTZ.D, CLZ.W, CLZ.D (41_bitscan.md R78-R80, R84-R87). -/

namespace Sys2Proof.Machine

/-- `CTZ_N` (R78): the least i with bit i set, and N where there is none (R80). -/
def ctz {n : Nat} (x : BitVec n) : Nat :=
  match (List.range n).find? (fun i => x.getLsbD i) with
  | some i => i
  | none => n

/-- `CLZ_N` (R79): N - 1 less the greatest i with bit i set, and N where there is none (R80). -/
def clz {n : Nat} (x : BitVec n) : Nat :=
  match (List.range n).reverse.find? (fun i => x.getLsbD i) with
  | some i => n - 1 - i
  | none => n

/-- CTZ.W (R84). -/
def respCtzW (a _b : Word) : Response := singleResponse (countWord (ctz (lowHalf a)))

/-- CTZ.D (R85). -/
def respCtzD (a _b : Word) : Response := singleResponse (countWord (ctz a))

/-- CLZ.W (R86). -/
def respClzW (a _b : Word) : Response := singleResponse (countWord (clz (lowHalf a)))

/-- CLZ.D (R87). -/
def respClzD (a _b : Word) : Response := singleResponse (countWord (clz a))

/-- CTZ.W: its response is delivered (R84, 10_state.md R33). -/
def execCtzW (s : State) : Result := deliver respCtzW s

/-- CTZ.D: its response is delivered (R85, R33). -/
def execCtzD (s : State) : Result := deliver respCtzD s

/-- CLZ.W: its response is delivered (R86, R33). -/
def execClzW (s : State) : Result := deliver respClzW s

/-- CLZ.D: its response is delivered (R87, R33). -/
def execClzD (s : State) : Result := deliver respClzD s

end Sys2Proof.Machine
end

