-- ==== Sys2Proof/Machine/Digits.lean ====
section
/-! DEFINITION. The decimal digit counter: DIGITS.W and DIGITS.D (40_digits.md R71, R74, R75). -/

namespace Sys2Proof.Machine

/-- The base-10 representation of `v`, most significant digit first, without leading zeros; `fuel` bounds the
divisions, and `v` of them are always enough. -/
def decimalDigits : Nat → Nat → List Nat
  | 0, v => [v]
  | fuel + 1, v => if v < 10 then [v] else decimalDigits fuel (v / 10) ++ [v % 10]

/-- `decimal_length(v)` (00_scope.md R9): 1 for 0. -/
def decimalLength (v : Nat) : Nat := (decimalDigits v v).length

/-- `DIGITS_N` (R71). -/
def digits {n : Nat} (x : BitVec n) : Nat := decimalLength x.toNat

/-- DIGITS.W (R74). -/
def respDigitsW (a _b : Word) : Response := singleResponse (countWord (digits (lowHalf a)))

/-- DIGITS.D (R75). -/
def respDigitsD (a _b : Word) : Response := singleResponse (countWord (digits a))

/-- DIGITS.W: its response is delivered (R74, 10_state.md R33). -/
def execDigitsW (s : State) : Result := deliver respDigitsW s

/-- DIGITS.D: its response is delivered (R75, R33). -/
def execDigitsD (s : State) : Result := deliver respDigitsD s

end Sys2Proof.Machine
end

