-- ==== Sys2Proof/Machine/Multiply.lean ====
section
/-! DEFINITION. The wide multiply: MULW.W and MULW.D (43_multiply.md R94, R97, R98). -/

namespace Sys2Proof.Machine

/-- The low half of `MULW_N`: the exact product mod 2^N (R94). -/
def mulwLow {n : Nat} (x y : BitVec n) : BitVec n := BitVec.ofNat n (x.toNat * y.toNat)

/-- The high half of `MULW_N`: the exact product divided by 2^N (R94). -/
def mulwHigh {n : Nat} (x y : BitVec n) : BitVec n := BitVec.ofNat n (x.toNat * y.toNat / 2 ^ n)

/-- MULW.W (R97). -/
def respMulwW (a b : Word) : Response :=
  pairResponse (zext (mulwLow (lowHalf a) (lowHalf b))) (zext (mulwHigh (lowHalf a) (lowHalf b)))

/-- MULW.D (R98). -/
def respMulwD (a b : Word) : Response := pairResponse (zext (mulwLow a b)) (zext (mulwHigh a b))

/-- MULW.W: its response is delivered (R97, 10_state.md R33). -/
def execMulwW (s : State) : Result := deliver respMulwW s

/-- MULW.D: its response is delivered (R98, R33). -/
def execMulwD (s : State) : Result := deliver respMulwD s

end Sys2Proof.Machine
end

