-- ==== Sys2Proof/Machine/PdepPext.lean ====
section
/-! DEFINITION. Parallel bit deposit and extract: PDEP.W, PDEP.D, PEXT.W, PEXT.D (44_pdep_pext.md R99, R100,
R108-R111). -/

namespace Sys2Proof.Machine

/-- The positions p_0 < p_1 < ... at which the mask is 1 (R99). -/
def maskPositions {n : Nat} (m : BitVec n) : List Nat := (List.range n).filter (fun i => m.getLsbD i)

/-- The sum over the mask positions, the j-th of them taken from position `src j p` and put at `dst j p`. -/
def moveBits {n : Nat} (x : BitVec n) (src dst : Nat → Nat → Nat) : Nat → List Nat → Nat
  | _, [] => 0
  | j, p :: ps => (x.getLsbD (src j p)).toNat * 2 ^ dst j p + moveBits x src dst (j + 1) ps

/-- `PDEP_N` (R99): the sum over j of A[j] * 2^(p_j). -/
def pdep {n : Nat} (x m : BitVec n) : BitVec n :=
  BitVec.ofNat n (moveBits x (fun j _ => j) (fun _ p => p) 0 (maskPositions m))

/-- `PEXT_N` (R100): the sum over j of A[p_j] * 2^j. -/
def pext {n : Nat} (x m : BitVec n) : BitVec n :=
  BitVec.ofNat n (moveBits x (fun _ p => p) (fun j _ => j) 0 (maskPositions m))

/-- PDEP.W (R108). -/
def respPdepW (a b : Word) : Response := singleResponse (zext (pdep (lowHalf a) (lowHalf b)))

/-- PDEP.D (R109). -/
def respPdepD (a b : Word) : Response := singleResponse (zext (pdep a b))

/-- PEXT.W (R110). -/
def respPextW (a b : Word) : Response := singleResponse (zext (pext (lowHalf a) (lowHalf b)))

/-- PEXT.D (R111). -/
def respPextD (a b : Word) : Response := singleResponse (zext (pext a b))

/-- PDEP.W: its response is delivered (R108, 10_state.md R33). -/
def execPdepW (s : State) : Result := deliver respPdepW s

/-- PDEP.D: its response is delivered (R109, R33). -/
def execPdepD (s : State) : Result := deliver respPdepD s

/-- PEXT.W: its response is delivered (R110, R33). -/
def execPextW (s : State) : Result := deliver respPextW s

/-- PEXT.D: its response is delivered (R111, R33). -/
def execPextD (s : State) : Result := deliver respPextD s

end Sys2Proof.Machine
end

