-- ==== Sys2Proof/Machine/PopCount.lean ====
section
/-! DEFINITION. The population count: POPC.W and POPC.D (42_popcount.md R88, R90, R91). -/

namespace Sys2Proof.Machine

/-- `POPC_N` (R88): the number of i in 0..N-1 with bit i set. -/
def popc {n : Nat} (x : BitVec n) : Nat := (List.range n).countP (fun i => x.getLsbD i)

/-- POPC.W (R90). -/
def respPopcW (a _b : Word) : Response := singleResponse (countWord (popc (lowHalf a)))

/-- POPC.D (R91). -/
def respPopcD (a _b : Word) : Response := singleResponse (countWord (popc a))

/-- POPC.W: its response is delivered (R90, 10_state.md R33). -/
def execPopcW (s : State) : Result := deliver respPopcW s

/-- POPC.D: its response is delivered (R91, R33). -/
def execPopcD (s : State) : Result := deliver respPopcD s

end Sys2Proof.Machine
end

