-- ==== Sys2Proof/Machine/Dispatch.lean ====
section
/-! DEFINITION. One arm for each command: the meaning that runs it. -/

namespace Sys2Proof.Machine

def exec (i : Instr) (s : State) : Host.Outcome State Fault Refusal :=
  match i with
  | .digitsW => Sys2Proof.Machine.execDigitsW s
  | .digitsD => Sys2Proof.Machine.execDigitsD s
  | .ctzW => Sys2Proof.Machine.execCtzW s
  | .ctzD => Sys2Proof.Machine.execCtzD s
  | .clzW => Sys2Proof.Machine.execClzW s
  | .clzD => Sys2Proof.Machine.execClzD s
  | .popcW => Sys2Proof.Machine.execPopcW s
  | .popcD => Sys2Proof.Machine.execPopcD s
  | .mulwW => Sys2Proof.Machine.execMulwW s
  | .mulwD => Sys2Proof.Machine.execMulwD s
  | .pdepW => Sys2Proof.Machine.execPdepW s
  | .pdepD => Sys2Proof.Machine.execPdepD s
  | .pextW => Sys2Proof.Machine.execPextW s
  | .pextD => Sys2Proof.Machine.execPextD s

end Sys2Proof.Machine
end

