-- ==== Sys2Proof/Machine/Ports.lean ====
section
/-! DEFINITION. The inputs of the clock cycle at hand, and the handshake outputs (10_state.md R21, R23). -/

namespace Sys2Proof.Machine

/-- A host that offers nothing, takes nothing and does not reset: the cycles after the script (DESIGN
CHOICE, log entry 4). -/
def HostPorts.quiet : HostPorts := ⟨false, false, ⟨0#8, 0#64, 0#64⟩, false⟩

/-- The clock cycle that the next rising edge ends: the script's next; after it a quiet host and free draws. -/
def State.now (s : State) : ClockCycle :=
  match s.script with
  | c :: _ => c
  | [] => ⟨HostPorts.quiet, Config.draws s.cycle⟩

/-- `req_ready` (R23): a draw, 0 in reset and 0 where `Q` is full. -/
def reqReady (c : ClockCycle) (s : State) : Bool :=
  !c.host.rst && c.draws.ready && decide (s.queue.length < s.build.depth)

/-- `length(Q) > 0 and Q[0].done` (R23). -/
def State.oldestDone (s : State) : Bool :=
  match s.queue with
  | e :: _ => e.done
  | [] => false

/-- `resp_valid` (R23): 0 in reset, else whether the oldest entry is done. -/
def respValid (c : ClockCycle) (s : State) : Bool := !c.host.rst && s.oldestDone

/-- A transfer on the response channel at this edge (R21). -/
def delivers (c : ClockCycle) (s : State) : Bool := c.host.respReady && respValid c s

/-- A transfer on the request channel at this edge (R21). -/
def accepts (c : ClockCycle) (s : State) : Bool := c.host.reqValid && reqReady c s

/-- The host keeps the request it has on offer, unchanged (R136). -/
def offerHeld (c : ClockCycle) (s : State) : Bool :=
  match s.offer with
  | none => true
  | some r => c.host.reqValid && decide (c.host.req = r)

end Sys2Proof.Machine
end

