-- ==== Sys2Proof/Machine/Response.lean ====
section
/-! DEFINITION. The result function `F` (30_encoding.md R63) and the response ports (10_state.md R23). -/

namespace Sys2Proof.Machine

/-- The response of each command to its two operands (R63, the arms of a legal command). -/
def respond : Instr → Word → Word → Response
  | .digitsW => respDigitsW
  | .digitsD => respDigitsD
  | .ctzW => respCtzW
  | .ctzD => respCtzD
  | .clzW => respClzW
  | .clzD => respClzD
  | .popcW => respPopcW
  | .popcD => respPopcD
  | .mulwW => respMulwW
  | .mulwD => respMulwD
  | .pdepW => respPdepW
  | .pdepD => respPdepD
  | .pextW => respPextW
  | .pextD => respPextD

/-- `F(cmd, a, b)` (R63): total on all commands and operands. -/
def resultFn (r : Request) : Response :=
  match decodeCmd r.cmd with
  | .ok i => respond i r.a r.b
  | .error _ => illegalResponse

/-- `resp_lo`, `resp_hi`, `resp_err` (R23): `F` of the oldest entry while `resp_valid = 1`, else a draw (R37). -/
def respPorts (c : ClockCycle) (s : State) : Response :=
  if respValid c s then
    match s.queue with
    | e :: _ => resultFn e.request
    | [] => c.draws.idle
  else c.draws.idle

/-- The output ports of the block (R21). -/
structure Outputs where
  reqReady : Bool
  respValid : Bool
  resp : Response
  deriving DecidableEq, Repr

/-- What the output ports show in a clock cycle (R23). -/
def outputs (c : ClockCycle) (s : State) : Outputs := ⟨reqReady c s, respValid c s, respPorts c s⟩

end Sys2Proof.Machine
end

