-- ==== Sys2Proof/Machine/Edge.lean ====
section
/-! DEFINITION. What one rising edge of `clk` does (10_state.md R31-R34, 70_reset_and_hazards.md R129, R136). -/

namespace Sys2Proof.Machine

/-- Run the oldest command and deliver its response (R33, R63): the meaning of the command its byte names, or the
error response where it names none (60_exceptions.md R115). -/
def runOldest (s : State) : Result :=
  match s.queue with
  | e :: _ =>
    match decodeCmd e.cmd with
    | .ok i => exec i s
    | .error _ => raiseIllegal s
  | [] => .fault .noResponseOffered

/-- The delivery part of an edge (R33). -/
def deliveryPart (c : ClockCycle) (s : State) : Result :=
  if delivers c s then runOldest s else .next s

/-- The acceptance part of an edge (R31); `accepting` is whether the request channel transfers. -/
def acceptancePart (c : ClockCycle) (accepting : Bool) (s : State) : State :=
  if accepting then s.accept c.host.req c.draws.acceptDone
  else s.setOffer (if c.host.reqValid then some c.host.req else none)

/-- What follows the delivery at an edge: completion of the remaining older entries, then acceptance (R34).
`accepting` was settled on the queue before the edge. -/
def afterDelivery (c : ClockCycle) (accepting : Bool) (s : State) : State :=
  (acceptancePart c accepting (s.complete c.draws.completing)).tick

/-- One rising edge at the end of cycle `c`: reset before everything (R118, R129), no move for a host that drops
its request (R136), else delivery, completion and acceptance in this order (R34). -/
def edge (c : ClockCycle) (s : State) : Result :=
  if c.host.rst then .next s.clear.tick
  else if offerHeld c s then
    match deliveryPart c s with
    | .next t => .next (afterDelivery c (accepts c s) t)
    | .fault r => .fault r
    | .refused r => .refused r
  else .refused .requestNotHeld

/-- The cycle in which the host takes the response on offer and only goes on holding the request it has out. -/
def takingCycle (o : Option Request) : ClockCycle :=
  ⟨⟨false, o.isSome, o.getD ⟨0#8, 0#64, 0#64⟩, true⟩, ⟨false, false, [], ⟨0#64, 0#64, false⟩⟩⟩

/-- `s` with the command byte `c` (operands 0) as the oldest entry, done, the host's record of accepted requests kept
in step with `Q`, and the host about to take its response (DESIGN CHOICE, log entry 16). -/
def State.withOldest (s : State) (c : Cmd) : State :=
  { s with
    queue := ⟨c, 0#64, 0#64, true⟩ :: s.queue.tail
    accepted := s.accepted.take s.delivered.length ++ ⟨c, 0#64, 0#64⟩ :: s.queue.tail.map Entry.request
    script := takingCycle s.offer :: s.script }

end Sys2Proof.Machine
end

