-- ==== Sys2Proof/Machine/Step.lean ====
section
/-! DEFINITION. The step: one rising edge, at the end of the cycle the script gives (10_state.md R36). -/

namespace Sys2Proof.Machine

/-- One rising edge of `clk`. -/
def step (s : State) : Host.Outcome State Fault Refusal := edge s.now s.popScript

/-- `s` with the command of a table word placed where the next step runs it: as the oldest entry of `Q`, done, with the
host taking its response. Words above `nbits` are 0, and a command is one byte (30_encoding.md R57). -/
def State.withFetchWord (s : State) (nbits w : Nat) : State := s.withOldest (BitVec.ofNat 8 (w % 2 ^ nbits))

end Sys2Proof.Machine
end

