-- ==== Sys2Proof/Machine/Tables.lean ====
section
/-! DEFINITION. The five constant tables (20_memory.md R49-R54) and the other constants of the datapaths (R55). They are
fixed when the block is built, written by nothing and read by no meaning: only the reference datapaths read them. -/

namespace Sys2Proof.Machine

/-- `Rom(T, i)` (00_scope.md R10). Every read of a datapath is in range (R56); one that were not would
give 0 (log entry 18). -/
def rom (t : List Nat) (i : Nat) : Nat := t.getD i 0

/-- `POW10` (R50). -/
def pow10 : List Nat :=
  [1, 10, 100, 1000, 10000, 100000, 1000000, 10000000, 100000000, 1000000000] ++
  [10000000000, 100000000000, 1000000000000, 10000000000000, 100000000000000,
   1000000000000000, 10000000000000000, 100000000000000000, 1000000000000000000,
   10000000000000000000]

/-- `GUESS32` (R51), by bit length 0 to 32. -/
def guess32 : List Nat :=
  [1, 0, 0, 0, 1, 1, 1, 2, 2, 2, 3, 3, 3, 3, 4, 4, 4] ++
  [5, 5, 5, 6, 6, 6, 6, 7, 7, 7, 8, 8, 8, 9, 9, 9]

/-- `GUESS64` (R52), by bit length 0 to 64. -/
def guess64 : List Nat :=
  guess32 ++
  [9, 10, 10, 10, 11, 11, 11, 12, 12, 12, 12, 13, 13, 13, 14, 14] ++
  [14, 15, 15, 15, 15, 16, 16, 16, 17, 17, 17, 18, 18, 18, 18, 19]

/-- `DB_CTZ` (R53). -/
def dbCtz : List Nat :=
  [0, 1, 28, 2, 29, 14, 24, 3, 30, 22, 20, 15, 25, 17, 4, 8] ++
  [31, 27, 13, 23, 21, 19, 16, 7, 26, 12, 18, 6, 11, 5, 10, 9]

/-- `DB_CLZ` (R54). -/
def dbClz : List Nat :=
  [0, 9, 1, 10, 13, 21, 2, 29, 11, 14, 16, 18, 22, 25, 3, 30] ++
  [8, 12, 20, 28, 15, 17, 24, 7, 19, 27, 23, 6, 26, 5, 4, 31]

/-- `DBM_CTZ` (R53, R55). -/
def dbmCtz : Half := 0x077CB531#32

/-- `DBM_CLZ` (R54, R55). -/
def dbmClz : Half := 0x07C4ACDD#32

/-- The four SWAR masks at one width (R55). -/
structure SwarMasks (n : Nat) where
  m1 : BitVec n
  m2 : BitVec n
  m4 : BitVec n
  h01 : BitVec n

/-- The masks at N = 32 (R55). -/
def swar32 : SwarMasks 32 := ⟨0x55555555#32, 0x33333333#32, 0x0F0F0F0F#32, 0x01010101#32⟩

/-- The masks at N = 64 (R55). -/
def swar64 : SwarMasks 64 :=
  ⟨0x5555555555555555#64, 0x3333333333333333#64, 0x0F0F0F0F0F0F0F0F#64, 0x0101010101010101#64⟩

end Sys2Proof.Machine
end

