-- ==== Sys2Proof/Machine/Datapath.lean ====
section
/-! DEFINITION. The helpers and the reference datapaths of the block's components (00_scope.md R3): informative, the
contract functions give the results (R11). -/

namespace Sys2Proof.Machine

/-- `ISOLATE_LSB_N` (41_bitscan.md R76). -/
def isolateLsb {n : Nat} (v : BitVec n) : BitVec n := v &&& -v

/-- `CLEAR_LSB_N` (R77). -/
def clearLsb {n : Nat} (v : BitVec n) : BitVec n := v &&& (v - 1#n)

/-- `CTZ_REF_32` (R81). -/
def ctzRef32 (x : Half) : Nat :=
  if x = 0#32 then 32 else rom dbCtz ((isolateLsb x * dbmCtz) >>> 27).toNat

/-- The smear of R82: every bit at and below the highest set bit becomes 1. -/
def smear32 (x : Half) : Half :=
  let s1 := x ||| (x >>> 1)
  let s2 := s1 ||| (s1 >>> 2)
  let s4 := s2 ||| (s2 >>> 4)
  let s8 := s4 ||| (s4 >>> 8)
  s8 ||| (s8 >>> 16)

/-- `CLZ_REF_32` (R82). -/
def clzRef32 (x : Half) : Nat :=
  if x = 0#32 then 32 else 31 - rom dbClz ((smear32 x * dbmClz) >>> 27).toNat

/-- `CTZ_REF_64` (R83). -/
def ctzRef64 (x : Word) : Nat :=
  if lowHalf x ≠ 0#32 then ctzRef32 (lowHalf x) else 32 + ctzRef32 (highHalf x)

/-- `CLZ_REF_64` (R83). -/
def clzRef64 (x : Word) : Nat :=
  if highHalf x ≠ 0#32 then clzRef32 (highHalf x) else 32 + clzRef32 (lowHalf x)

/-- `DIGITS_REF_N` (40_digits.md R72) with the guess table of its width. -/
def digitsRef {n : Nat} (guess : List Nat) (x : BitVec n) : Nat :=
  let g := rom guess (n - clz x)
  if rom pow10 g ≤ x.toNat then g + 1 else g

/-- `DIGITS_REF_32` (R72). -/
def digitsRef32 (x : Half) : Nat := digitsRef guess32 x

/-- `DIGITS_REF_64` (R72). -/
def digitsRef64 (x : Word) : Nat := digitsRef guess64 x

/-- The first step of the SWAR tree (42_popcount.md R89): 1-bit groups into 2-bit fields. -/
def swarPairs {n : Nat} (k : SwarMasks n) (x : BitVec n) : BitVec n := (x &&& k.m1) + ((x >>> 1) &&& k.m1)

/-- The other form of the first step (R89). -/
def swarPairsBySub {n : Nat} (k : SwarMasks n) (x : BitVec n) : BitVec n := x - ((x >>> 1) &&& k.m1)

/-- The second step (R89): 2-bit fields into 4-bit fields. -/
def swarNibbles {n : Nat} (k : SwarMasks n) (x : BitVec n) : BitVec n := (x &&& k.m2) + ((x >>> 2) &&& k.m2)

/-- The third step (R89): 4-bit fields into bytes. -/
def swarBytes {n : Nat} (k : SwarMasks n) (x : BitVec n) : BitVec n := (x + (x >>> 4)) &&& k.m4

/-- The horizontal byte sum by a multiply (R89). -/
def swarSum {n : Nat} (k : SwarMasks n) (x : BitVec n) : Nat := ((x * k.h01) >>> (n - 8)).toNat

/-- The explicit horizontal accumulation at N = 32 (R89). -/
def swarSumByAdds32 (x : Half) : Nat :=
  let x8 := x + (x >>> 8)
  let x16 := x8 + (x8 >>> 16)
  (x16 &&& 0x7F#32).toNat

/-- The explicit horizontal accumulation at N = 64, with its one extra step (R89). -/
def swarSumByAdds64 (x : Word) : Nat :=
  let x8 := x + (x >>> 8)
  let x16 := x8 + (x8 >>> 16)
  let x32 := x16 + (x16 >>> 32)
  (x32 &&& 0x7F#64).toNat

/-- `POPC_REF_N` up to the byte counts (R89). -/
def swarTree {n : Nat} (k : SwarMasks n) (x : BitVec n) : BitVec n := swarBytes k (swarNibbles k (swarPairs k x))

/-- `POPC_REF_32` (R89). -/
def popcRef32 (x : Half) : Nat := swarSum swar32 (swarTree swar32 x)

/-- `POPC_REF_64` (R89). -/
def popcRef64 (x : Word) : Nat := swarSum swar64 (swarTree swar64 x)

/-- `MUL32` (43_multiply.md R93). -/
def mul32 (x y : Half) : Word := BitVec.ofNat 64 (x.toNat * y.toNat)

/-- The reference datapath of the N = 32 multiply (R95): low and high half. -/
def mulwRef32 (x y : Half) : Half × Half := (lowHalf (mul32 x y), highHalf (mul32 x y))

/-- The middle sum `t` of R95, wide enough to lose no carry. -/
def mulwMiddle (x y : Word) : Nat :=
  (highHalf (mul32 (lowHalf x) (lowHalf y))).toNat + (lowHalf (mul32 (highHalf x) (lowHalf y))).toNat
    + (lowHalf (mul32 (lowHalf x) (highHalf y))).toNat

/-- The sum for `hi` of R95, before it is put on 64 bits. -/
def mulwUpper (x y : Word) : Nat :=
  (mul32 (highHalf x) (highHalf y)).toNat + (highHalf (mul32 (highHalf x) (lowHalf y))).toNat
    + (highHalf (mul32 (lowHalf x) (highHalf y))).toNat + mulwMiddle x y / 2 ^ 32

/-- `MULW_REF_64` (R95): low and high half. -/
def mulwRef64 (x y : Word) : Word × Word :=
  (concatHalves (BitVec.ofNat 32 (mulwMiddle x y)) (lowHalf (mul32 (lowHalf x) (lowHalf y))),
   BitVec.ofNat 64 (mulwUpper x y))

/-- `PDEP_LOOP_N` (44_pdep_pext.md R105) from the accumulator `r`, value `v` and mask `m`: the result and how many
iterations ran, of at most `fuel`. -/
def pdepLoopFrom {n : Nat} : Nat → BitVec n → BitVec n → BitVec n → BitVec n × Nat
  | 0, r, _, _ => (r, 0)
  | fuel + 1, r, v, m =>
    if m = 0#n then (r, 0)
    else
      let out := pdepLoopFrom fuel (if v.getLsbD 0 then r ||| isolateLsb m else r) (v >>> 1) (clearLsb m)
      (out.1, out.2 + 1)

/-- `PDEP_LOOP_N` (R105), with its iteration count; N iterations are always enough (R107). -/
def pdepLoop {n : Nat} (x m : BitVec n) : BitVec n × Nat := pdepLoopFrom n 0#n x m

/-- `PEXT_LOOP_N` (R106) from the accumulator `r` and mask `m`: the result and how many iterations ran, of at most
`fuel`. -/
def pextLoopFrom {n : Nat} (x : BitVec n) : Nat → BitVec n → BitVec n → BitVec n × Nat
  | 0, r, _ => (r, 0)
  | fuel + 1, r, m =>
    if m = 0#n then (r, 0)
    else
      let p := n - 1 - clz m
      let out := pextLoopFrom x fuel ((r <<< 1) ||| BitVec.ofNat n (x.getLsbD p).toNat) (m &&& ~~~(BitVec.ofNat n (2 ^ p)))
      (out.1, out.2 + 1)

/-- `PEXT_LOOP_N` (R106), with its iteration count. -/
def pextLoop {n : Nat} (x m : BitVec n) : BitVec n × Nat := pextLoopFrom x n 0#n m

/-- The deposit engine: dispatch on the mask's population count (R101), fast paths (R102-R104), loop (R105). -/
def pdepRef {n : Nat} (x m : BitVec n) : BitVec n :=
  match popc m with
  | 0 => 0#n
  | 1 => if x.getLsbD 0 then m else 0#n
  | 2 =>
    let mlow := isolateLsb m
    let mhigh := m ^^^ mlow
    (if x.getLsbD 0 then mlow else 0#n) ||| (if x.getLsbD 1 then mhigh else 0#n)
  | _ => (pdepLoop x m).1

/-- The extract engine: dispatch (R101), fast paths (R102-R104), loop (R106). -/
def pextRef {n : Nat} (x m : BitVec n) : BitVec n :=
  match popc m with
  | 0 => 0#n
  | 1 => if x &&& m ≠ 0#n then 1#n else 0#n
  | 2 =>
    let mlow := isolateLsb m
    let mhigh := m ^^^ mlow
    (if x &&& mlow ≠ 0#n then 1#n else 0#n) ||| (if x &&& mhigh ≠ 0#n then 2#n else 0#n)
  | _ => (pextLoop x m).1

end Sys2Proof.Machine
end

