-- ==== Sys2Proof/Safety.lean ====
section
/-! DEFINITION. The terms claims use: the invariant of the queue and the host's record (10_state.md R22, R36), complete
runs (00_scope.md R15), the transaction view (R36), runs and fairness (70_reset_and_hazards.md R140), and the contract
functions said a second way, as properties of a result. -/

namespace Sys2Proof.Machine

/-- `length(Q) <= DEPTH` (R22). -/
def QueueFits (s : State) : Prop := s.queue.length ≤ s.build.depth

/-- Exactly the accepted commands without a response are in `Q`, in order, and every response delivered is `F` of its
command, in order (R33, R36). -/
def RecordAgrees (s : State) : Prop :=
  ∃ answered, s.accepted = answered ++ s.queue.map Entry.request ∧ s.delivered = answered.map resultFn

/-- The invariant of the machine: it rules out the states no run reaches. -/
structure MachineInv (s : State) : Prop where
  fits : QueueFits s
  agrees : RecordAgrees s

/-- A run is complete at `s` (R15): `Q` empty, `rst = 0`, and one response for every command accepted. -/
def RunComplete (s : State) : Prop :=
  s.queue = [] ∧ s.now.host.rst = false ∧ s.delivered.length = s.accepted.length

/-- The transaction view of a state (R13, R36): clock, script and the host's offer left away. -/
structure View where
  build : Build
  queue : List Entry
  accepted : List Request
  delivered : List Response
  earlier : List Response

/-- The transaction view of a state. -/
def State.view (s : State) : View := ⟨s.build, s.queue, s.accepted, s.delivered, s.earlier⟩

/-- The four transitions of R36, each under the condition its rule states. -/
inductive Transaction : View → View → Prop
  /-- Accept (R31), where `req_ready` may be 1 (R23) -/
  | accept (v : View) (r : Request) (d : Bool) (room : v.queue.length < v.build.depth) :
      Transaction v { v with queue := v.queue ++ [⟨r.cmd, r.a, r.b, d⟩], accepted := v.accepted ++ [r] }
  /-- Complete (R32), of an entry that is not done -/
  | complete (v : View) (k : Nat) (e : Entry) (there : v.queue[k]? = some e) (pending : e.done = false) :
      Transaction v { v with queue := v.queue.set k { e with done := true } }
  /-- Deliver (R33), of the oldest entry where it is done -/
  | deliver (v : View) (e : Entry) (q : List Entry) (oldest : v.queue = e :: q) (done : e.done = true) :
      Transaction v { v with queue := q, delivered := v.delivered ++ [resultFn e.request] }
  /-- Reset (R129) -/
  | reset (v : View) :
      Transaction v { v with queue := [], accepted := [], delivered := [], earlier := v.earlier ++ v.delivered }

/-- An infinite run: `env n` is clock cycle `n` and `st n` the state in it. -/
def IsRun (env : Nat → ClockCycle) (st : Nat → State) : Prop := ∀ n, edge (env n) (st n) = .next (st (n + 1))

/-- The entry with number `a`, counting from 0 the entries the record since the last reset knows: those delivered come
first, then those in `Q`, oldest first (R33, R36). An entry keeps its number while it moves up the queue. -/
def State.entryAt (s : State) (a : Nat) : Option Entry :=
  if s.delivered.length ≤ a then s.queue[a - s.delivered.length]? else none

/-- Weak fairness of the Complete step (R140), for every entry of `Q`, oldest or not: an entry that stays pending
forever is drawn to complete at some edge, at its position in the queue that the edge's delivery leaves (R34). -/
def CompletionFair (env : Nat → ClockCycle) (st : Nat → State) : Prop :=
  ∀ n a, (∀ m, n ≤ m → ∃ e, (st m).entryAt a = some e ∧ e.done = false) →
    ∃ m, n ≤ m ∧ a - (st (m + 1)).delivered.length ∈ (env m).draws.completing

/-- The part of `CompletionFair` that speaks of the oldest entry alone, a weaker premise (log entry 9): an oldest entry
that stays pending forever is drawn at some edge. -/
def OldestCompletionFair (env : Nat → ClockCycle) (st : Nat → State) : Prop :=
  ∀ n, (∀ m, n ≤ m → (st m).queue ≠ [] ∧ (st m).oldestDone = false) → ∃ m, n ≤ m ∧ 0 ∈ (env m).draws.completing

/-- Weak fairness of `req_ready` (R140): if the queue has room at every edge from some edge on, `req_ready` is drawn 1 at
some edge of those. -/
def ReadyFair (env : Nat → ClockCycle) (st : Nat → State) : Prop :=
  ∀ n, (∀ m, n ≤ m → (st m).queue.length < (st m).build.depth) → ∃ m, n ≤ m ∧ (env m).draws.ready = true

/-- `decimal_length(v)` (00_scope.md R9), by the library's base-10 digits. -/
def DecimalLength (v : Nat) : Nat := if v = 0 then 1 else (Nat.digits 10 v).length

/-- What R78 and R80 ask of `CTZ_N(x)`. -/
def IsCtz {n : Nat} (x : BitVec n) (r : Nat) : Prop :=
  if x = 0#n then r = n else x.getLsbD r = true ∧ ∀ i, i < r → x.getLsbD i = false

/-- What R79 and R80 ask of `CLZ_N(x)`. -/
def IsClz {n : Nat} (x : BitVec n) (r : Nat) : Prop :=
  if x = 0#n then r = n else ∃ i, x.getLsbD i = true ∧ (∀ j, i < j → x.getLsbD j = false) ∧ r = n - 1 - i

/-- The number of set bits below position `i`: the sum of them (42_popcount.md R88). -/
def bitsBelow {n : Nat} (x : BitVec n) (i : Nat) : Nat := ∑ j ∈ Finset.range i, (x.getLsbD j).toNat

/-- What 44_pdep_pext.md R99 asks of `PDEP_N(x, m)`: bit p_j is bit j of x, where j counts the mask bits below p_j, and
a bit outside the mask is 0. -/
def IsPdep {n : Nat} (x m r : BitVec n) : Prop :=
  ∀ i, i < n → r.getLsbD i = (m.getLsbD i && x.getLsbD (bitsBelow m i))

/-- What R100 asks of `PEXT_N(x, m)`: bit j is bit p_j of x for each mask bit, and the bits from k on are 0. -/
def IsPext {n : Nat} (x m r : BitVec n) : Prop :=
  (∀ i, i < n → m.getLsbD i = true → r.getLsbD (bitsBelow m i) = x.getLsbD i) ∧
    ∀ j, bitsBelow m n ≤ j → r.getLsbD j = false

/-- The command `i`, run at `s`, delivers `lo` and `hi` with `err = 0`, leaves `q` in the queue and changes nothing else. -/
def Answers (i : Instr) (s : State) (q : List Entry) (lo hi : Word) : Prop :=
  exec i s = .next { s with queue := q, delivered := s.delivered ++ [⟨lo, hi, false⟩] }

end Sys2Proof.Machine
end

