-- ==== Sys2Proof/Certificates/Slice0/Obligations.lean ====
section
/-! DEFINITION. The statements put to the provers: each is a Prop, proved elsewhere. -/

open Sys2Proof Sys2Proof.Machine

/-! ## What each command delivers -/

/-- R71, R74, R75: DIGITS delivers the decimal length of its operand, 1 to 10 or 1 to 20, with `hi = 0` and `err = 0`. -/
def Obligations.DigitsDeliversDecimalLength : Prop :=
  encode .digitsW = 0x01#8 ∧ encode .digitsD = 0x09#8 ∧
  ∀ (s : State) (e : Entry) (q : List Entry), s.queue = e :: q → e.done = true →
    (∃ d, d = DecimalLength (e.a.toNat % 2 ^ 32) ∧ 1 ≤ d ∧ d ≤ 10 ∧ Answers .digitsW s q (BitVec.ofNat 64 d) 0#64) ∧
    (∃ d, d = DecimalLength e.a.toNat ∧ 1 ≤ d ∧ d ≤ 20 ∧ Answers .digitsD s q (BitVec.ofNat 64 d) 0#64)

/-- R78, R84, R85: CTZ delivers the position of the lowest set bit, or the width. -/
def Obligations.CtzDeliversLowestSetBit : Prop :=
  encode .ctzW = 0x02#8 ∧ encode .ctzD = 0x0A#8 ∧
  ∀ (s : State) (e : Entry) (q : List Entry), s.queue = e :: q → e.done = true →
    (∃ r, IsCtz (BitVec.ofNat 32 e.a.toNat) r ∧ r ≤ 32 ∧ Answers .ctzW s q (BitVec.ofNat 64 r) 0#64) ∧
    (∃ r, IsCtz e.a r ∧ r ≤ 64 ∧ Answers .ctzD s q (BitVec.ofNat 64 r) 0#64)

/-- R79, R86, R87: CLZ delivers N - 1 less the position of the highest set bit, or the width; it is N less the bit length. -/
def Obligations.ClzDeliversHighestSetBit : Prop :=
  encode .clzW = 0x03#8 ∧ encode .clzD = 0x0B#8 ∧
  ∀ (s : State) (e : Entry) (q : List Entry), s.queue = e :: q → e.done = true →
    (∃ r, IsClz (BitVec.ofNat 32 e.a.toNat) r ∧ r + Nat.size (e.a.toNat % 2 ^ 32) = 32 ∧
      Answers .clzW s q (BitVec.ofNat 64 r) 0#64) ∧
    (∃ r, IsClz e.a r ∧ r + Nat.size e.a.toNat = 64 ∧ Answers .clzD s q (BitVec.ofNat 64 r) 0#64)

/-- R80: the zero input of CTZ and CLZ is no fault and gives the width. -/
def Obligations.ZeroScansGiveTheWidth : Prop :=
  ∀ (s : State) (e : Entry) (q : List Entry), s.queue = e :: q → e.done = true →
    (e.a.toNat % 2 ^ 32 = 0 → Answers .ctzW s q 32#64 0#64 ∧ Answers .clzW s q 32#64 0#64) ∧
    (e.a = 0#64 → Answers .ctzD s q 64#64 0#64 ∧ Answers .clzD s q 64#64 0#64)

/-- R88, R90, R91: POPC delivers the sum of the bits of its operand, at most N. -/
def Obligations.PopcDeliversSumOfBits : Prop :=
  encode .popcW = 0x04#8 ∧ encode .popcD = 0x0C#8 ∧
  ∀ (s : State) (e : Entry) (q : List Entry), s.queue = e :: q → e.done = true →
    (bitsBelow e.a 32 ≤ 32 ∧ Answers .popcW s q (BitVec.ofNat 64 (bitsBelow e.a 32)) 0#64) ∧
    (bitsBelow e.a 64 ≤ 64 ∧ Answers .popcD s q (BitVec.ofNat 64 (bitsBelow e.a 64)) 0#64)

/-- R94, R97, R98: MULW delivers the exact double-width product in two halves of N bits. -/
def Obligations.MulwDeliversExactProduct : Prop :=
  encode .mulwW = 0x05#8 ∧ encode .mulwD = 0x0D#8 ∧
  ∀ (s : State) (e : Entry) (q : List Entry), s.queue = e :: q → e.done = true →
    (∃ lo hi : Word, lo.toNat < 2 ^ 32 ∧ hi.toNat < 2 ^ 32 ∧
      hi.toNat * 2 ^ 32 + lo.toNat = (e.a.toNat % 2 ^ 32) * (e.b.toNat % 2 ^ 32) ∧ Answers .mulwW s q lo hi) ∧
    (∃ lo hi : Word, hi.toNat * 2 ^ 64 + lo.toNat = e.a.toNat * e.b.toNat ∧ Answers .mulwD s q lo hi)

/-- R99, R108, R109: PDEP scatters the low value bits to the mask positions, zero elsewhere. -/
def Obligations.PdepScattersToMaskPositions : Prop :=
  encode .pdepW = 0x06#8 ∧ encode .pdepD = 0x0E#8 ∧
  ∀ (s : State) (e : Entry) (q : List Entry), s.queue = e :: q → e.done = true →
    (∃ r, IsPdep (BitVec.ofNat 32 e.a.toNat) (BitVec.ofNat 32 e.b.toNat) r ∧
      Answers .pdepW s q (BitVec.ofNat 64 r.toNat) 0#64) ∧
    (∃ r, IsPdep e.a e.b r ∧ Answers .pdepD s q r 0#64)

/-- R100, R110, R111: PEXT gathers the value bits at the mask positions into a low field, zero above. -/
def Obligations.PextGathersFromMaskPositions : Prop :=
  encode .pextW = 0x07#8 ∧ encode .pextD = 0x0F#8 ∧
  ∀ (s : State) (e : Entry) (q : List Entry), s.queue = e :: q → e.done = true →
    (∃ r, IsPext (BitVec.ofNat 32 e.a.toNat) (BitVec.ofNat 32 e.b.toNat) r ∧
      Answers .pextW s q (BitVec.ofNat 64 r.toNat) 0#64) ∧
    (∃ r, IsPext e.a e.b r ∧ Answers .pextD s q r 0#64)

/-- R33: the meaning of every command delivers the response the result function gives its entry, and where no response
is offered it stops with the model's fault (log entry 12). -/
def Obligations.EveryCommandAnswersItsResult : Prop :=
  (∀ (i : Instr) (s : State) (e : Entry) (q : List Entry), s.queue = e :: q → e.done = true → e.cmd = encode i →
    exec i s = .next { s with queue := q, delivered := s.delivered ++ [resultFn e.request] }) ∧
  ∀ (i : Instr) (s : State), s.oldestDone = false → exec i s = .fault .noResponseOffered

/-- The frame of every command (R22, R24, R26, R27): where one answers a next state, one entry has left the queue, one
response with `err = 0` was delivered, and everything else is as before. -/
def Obligations.CommandsChangeOnlyQueueAndResponses : Prop :=
  ∀ (i : Instr) (s t : State), exec i s = .next t →
    t.queue = s.queue.tail ∧ (∃ r : Response, t.delivered = s.delivered ++ [r] ∧ r.err = false) ∧
    t.build = s.build ∧ t.offer = s.offer ∧ t.cycle = s.cycle ∧ t.script = s.script ∧
    t.accepted = s.accepted ∧ t.earlier = s.earlier

/-- R64: a `.W` command does not see the upper operand halves, and a one-operand command does not see `b`. -/
def Obligations.IgnoredOperandBitsDoNotMatter : Prop :=
  ∀ (i : Instr) (a b a' b' : Word),
    a.toNat % 2 ^ i.width.bits = a'.toNat % 2 ^ i.width.bits →
    (i.func.usesB = true → b.toNat % 2 ^ i.width.bits = b'.toNat % 2 ^ i.width.bits) →
    resultFn ⟨encode i, a, b⟩ = resultFn ⟨encode i, a', b'⟩ ∧ (resultFn ⟨encode i, a, b⟩).err = false

/-- R65 (its general clauses): a result fits its N bits, `hi` is 0 but for MULW, `err` is 0, and no count exceeds N. -/
def Obligations.ResultsFitTheirWidth : Prop :=
  ∀ (i : Instr) (a b : Word),
    (resultFn ⟨encode i, a, b⟩).lo.toNat < 2 ^ i.width.bits ∧
    (resultFn ⟨encode i, a, b⟩).hi.toNat < 2 ^ i.width.bits ∧
    (i.func ≠ .mulw → (resultFn ⟨encode i, a, b⟩).hi = 0#64) ∧
    (i.func ∈ [.digits, .ctz, .clz, .popc] → (resultFn ⟨encode i, a, b⟩).lo.toNat ≤ i.width.bits) ∧
    (resultFn ⟨encode i, a, b⟩).err = false

/-! ## Encoding -/

/-- R62, R66: the 14 bytes decode to their commands, and no other byte decodes. -/
def Obligations.FourteenBytesDecode : Prop :=
  decodeCmd 0x01#8 = .ok .digitsW ∧ decodeCmd 0x09#8 = .ok .digitsD ∧
  decodeCmd 0x02#8 = .ok .ctzW ∧ decodeCmd 0x0A#8 = .ok .ctzD ∧
  decodeCmd 0x03#8 = .ok .clzW ∧ decodeCmd 0x0B#8 = .ok .clzD ∧
  decodeCmd 0x04#8 = .ok .popcW ∧ decodeCmd 0x0C#8 = .ok .popcD ∧
  decodeCmd 0x05#8 = .ok .mulwW ∧ decodeCmd 0x0D#8 = .ok .mulwD ∧
  decodeCmd 0x06#8 = .ok .pdepW ∧ decodeCmd 0x0E#8 = .ok .pdepD ∧
  decodeCmd 0x07#8 = .ok .pextW ∧ decodeCmd 0x0F#8 = .ok .pextD ∧
  ∀ c : Cmd, (∃ x, decodeCmd c = .error x) ↔ (c.toNat = 0 ∨ c.toNat = 8 ∨ 16 ≤ c.toNat)

/-- R62, R69: every well-formed script line is read back from the request it stands for, every operand bit kept. -/
def Obligations.ScriptLinesReadBack : Prop :=
  ∀ l : ScriptLine, l.wellFormed = true → decodeLine (encodeLine l) = .ok l

/-- R62, R69: a request that the script reads is written by exactly the well-formed line it is read as, and the only
requests it cannot write are one-operand commands with `b` not 0. -/
def Obligations.RequestsWriteBack : Prop :=
  (∀ (r : Request) (l : ScriptLine), decodeLine r = .ok l → l.wellFormed = true ∧ encodeLine l = r) ∧
  ∀ r : Request, (∃ x, decodeLine r = .error x) ↔ (∃ i, r.cmd = encode i ∧ i.func.usesB = false ∧ r.b ≠ 0#64)

/-! ## Illegal commands -/

/-- R114: the error response is given exactly where `RSV != 0` or `FUNC = 0`, whatever the operands, and it is
`lo = 0, hi = 0, err = 1`. -/
def Obligations.IllegalExactlyByReservedOrNoFunction : Prop :=
  ∀ r : Request,
    ((resultFn r).err = true ↔ (r.cmd.toNat / 16 ≠ 0 ∨ r.cmd.toNat % 8 = 0)) ∧
    ((resultFn r).err = true → resultFn r = ⟨0#64, 0#64, true⟩)

/-- R115: a step whose oldest done entry is illegal answers it in its turn with the error response, and otherwise does
what it does at any edge: the machine goes on. -/
def Obligations.IllegalCommandIsAnsweredInTurn : Prop :=
  ∀ (s : State) (e : Entry) (q : List Entry), s.queue = e :: q → e.done = true →
    (e.cmd.toNat / 16 ≠ 0 ∨ e.cmd.toNat % 8 = 0) →
    s.now.host.rst = false → s.now.host.respReady = true → offerHeld s.now s = true →
    step s = .next (afterDelivery s.now (accepts s.now s)
      { s.popScript with queue := q, delivered := s.delivered ++ [⟨0#64, 0#64, true⟩] })

/-! ## The edge -/

/-- R63, R33: where the oldest entry is done, its byte decodes and the host takes the response, a step is the command's
meaning, followed by the completion, the acceptance and the clock of the same edge. -/
def Obligations.StepRunsTheOldestCommand : Prop :=
  ∀ (s : State) (e : Entry) (q : List Entry) (i : Instr), s.queue = e :: q → e.done = true →
    decodeCmd e.cmd = .ok i →
    s.now.host.rst = false → s.now.host.respReady = true → offerHeld s.now s = true →
    step s = (match exec i s.popScript with
      | .next t => .next (afterDelivery s.now (accepts s.now s) t)
      | .fault r => .fault r
      | .refused r => .refused r)

/-- R23: the outputs of a cycle. In reset both handshake outputs are 0; else a response is offered where the oldest
entry is done, the ports then show its result and otherwise a draw, and `req_ready` is the draw where `Q` has room and 0 where it has none. -/
def Obligations.OutputsFollowTheQueue : Prop :=
  ∀ (c : ClockCycle) (s : State),
    (c.host.rst = true → reqReady c s = false ∧ respValid c s = false) ∧
    (c.host.rst = false →
      (respValid c s = true ↔ ∃ e q, s.queue = e :: q ∧ e.done = true) ∧
      (∀ e q, s.queue = e :: q → e.done = true → respPorts c s = resultFn ⟨e.cmd, e.a, e.b⟩) ∧
      (respValid c s = false → respPorts c s = c.draws.idle) ∧
      (s.queue.length < s.build.depth → reqReady c s = c.draws.ready) ∧
      (s.build.depth ≤ s.queue.length → reqReady c s = false))

/-- R33: where both sides of the response channel are 1, the step delivers exactly what the ports show and the oldest
entry, it alone, leaves the queue; else it delivers nothing and every entry stays. The queue's commands after the edge
are the ones that stay, in order, followed by the accepted request where one is accepted. -/
def Obligations.DeliveryTakesWhatThePortsShow : Prop :=
  ∀ s t : State, step s = .next t → s.now.host.rst = false →
    (s.now.host.respReady = true ∧ respValid s.now s = true →
      t.delivered = s.delivered ++ [respPorts s.now s] ∧
      t.queue.map Entry.request =
        s.queue.tail.map Entry.request ++ (if accepts s.now s then [s.now.host.req] else [])) ∧
    (¬(s.now.host.respReady = true ∧ respValid s.now s = true) →
      t.delivered = s.delivered ∧
      t.queue.map Entry.request =
        s.queue.map Entry.request ++ (if accepts s.now s then [s.now.host.req] else []))

/-- R31: acceptance appends the whole request as the youngest entry, its `done` a draw, legal or not; where nothing is
accepted no entry is appended. What the entry keeps at later edges is AcceptedOperandsAreKeptUntilAnswered. -/
def Obligations.AcceptanceAppendsTheRequest : Prop :=
  ∀ s t : State, step s = .next t → s.now.host.rst = false →
    (s.now.host.reqValid = true ∧ reqReady s.now s = true →
      (∃ q, t.queue = q ++ [⟨s.now.host.req.cmd, s.now.host.req.a, s.now.host.req.b, s.now.draws.acceptDone⟩] ∧
        q.length = s.queue.length - (if delivers s.now s then 1 else 0)) ∧
      t.accepted = s.accepted ++ [s.now.host.req]) ∧
    (¬(s.now.host.reqValid = true ∧ reqReady s.now s = true) →
      t.queue.length = s.queue.length - (if delivers s.now s then 1 else 0) ∧ t.accepted = s.accepted)

/-- R32: at an edge without reset an entry that stays keeps its command and operands, becomes done where it is drawn to,
and is never undone. -/
def Obligations.CompletionIsADrawAndNeverUndone : Prop :=
  ∀ s t : State, step s = .next t → s.now.host.rst = false →
    ∀ (k : Nat) (e : Entry), (if delivers s.now s then s.queue.tail else s.queue)[k]? = some e →
      t.queue[k]? = some { e with done := e.done || decide (k ∈ s.now.draws.completing) }

/-- R34: at one edge the delivery comes first, then the completion of the remaining older entries, then the acceptance;
room was judged before the edge, so a full queue that delivers does not accept; with `rst = 1` none of the three happens:
no transfer takes place, the queue is empty afterwards, and the host has received nothing (the responses it holds, which
log entry 5 keeps in two lists, are those it held). -/
def Obligations.EdgeDeliversThenCompletesThenAccepts : Prop :=
  ∀ s t : State, step s = .next t →
    (s.now.host.rst = true → delivers s.now s = false ∧ accepts s.now s = false ∧ t.queue = [] ∧
      t.earlier ++ t.delivered = s.earlier ++ s.delivered) ∧
    (s.now.host.rst = false →
      t.queue = (if delivers s.now s then s.queue.tail else s.queue).mapIdx
          (fun k e => { e with done := e.done || decide (k ∈ s.now.draws.completing) }) ++
        (if accepts s.now s then
          [⟨s.now.host.req.cmd, s.now.host.req.a, s.now.host.req.b, s.now.draws.acceptDone⟩] else [])) ∧
    (s.build.depth ≤ s.queue.length → accepts s.now s = false) ∧
    (s.now.host.rst = false → s.queue.length < s.build.depth → s.now.host.reqValid = true → s.now.draws.ready = true →
      accepts s.now s = true)

/-- R139: while the host takes no response, none is lost, and a full queue accepts nothing. -/
def Obligations.BackPressureLosesNothing : Prop :=
  ∀ s t : State, step s = .next t → s.now.host.rst = false → s.now.host.respReady = false →
    t.delivered = s.delivered ∧
    t.queue.map Entry.request =
      s.queue.map Entry.request ++ (if accepts s.now s then [s.now.host.req] else []) ∧
    (s.build.depth ≤ s.queue.length →
      reqReady s.now s = false ∧ t.accepted = s.accepted ∧
      t.queue.map Entry.request = s.queue.map Entry.request)

/-- R137: a response that is offered and not taken is offered again, the same, in every cycle after the edge that does
not reset. -/
def Obligations.OfferedResponseIsStable : Prop :=
  ∀ s : State, respValid s.now s = true → s.now.host.respReady = false → offerHeld s.now s = true →
    ∃ t, step s = .next t ∧ ∀ c : ClockCycle, c.host.rst = false →
      respValid c t = true ∧ respPorts c t = respPorts s.now s

/-- R136: a step is refused exactly where, with `rst = 0`, the host does not keep the request it has on offer, and what
it has on offer after an edge is its request exactly where that was not accepted. The refusal is the model's way to give
such a host no move (log entry 6). -/
def Obligations.StepIsRefusedExactlyWhereTheOfferIsDropped : Prop :=
  (∀ s : State, step s = .refused .requestNotHeld ↔
    (s.now.host.rst = false ∧ ∃ r, s.offer = some r ∧ ¬(s.now.host.reqValid = true ∧ s.now.host.req = r))) ∧
  (∀ (s : State) (m : String), step s ≠ .refused (.notModelled m)) ∧
  ∀ s t : State, step s = .next t →
    t.offer = if s.now.host.rst = false ∧ s.now.host.reqValid = true ∧ accepts s.now s = false then some s.now.host.req
      else none

/-- R113: no step of the machine ends in a fault, whatever the state, the commands and the operands. -/
def Obligations.StepNeverFaults : Prop :=
  ∀ (s : State) (f : Fault), step s ≠ .fault f

/-- R129: an edge with `rst = 1` empties the queue, delivers and accepts nothing, and the record of what it ends is put
away (the record, and the request on offer becoming none, are the model's own, log entries 5 and 17). -/
def Obligations.ResetEdgeDiscardsTheQueue : Prop :=
  ∀ s : State, s.now.host.rst = true →
    reqReady s.now s = false ∧ respValid s.now s = false ∧
    step s = .next { s with
      queue := [], offer := none, cycle := s.cycle + 1, script := s.script.tail,
      accepted := [], delivered := [], earlier := s.earlier ++ s.delivered }

/-- R35: the reset state holds no command and offers no response, and in a cycle with `rst = 1` both handshake outputs
are 0. The empty records are the model's own (log entry 5). -/
def Obligations.ResetStateHoldsNoCommand : Prop :=
  State.reset.queue = [] ∧ State.reset.offer = none ∧ State.reset.accepted = [] ∧ State.reset.delivered = [] ∧
    State.reset.earlier = [] ∧
    ∀ c : ClockCycle, respValid c State.reset = false ∧ (c.host.rst = true → reqReady c State.reset = false)

/-- R131: after an edge with `rst = 1` the queue is empty, and if the next edge has `rst = 0` a request offered there is
accepted at once wherever `req_ready` is drawn 1. -/
def Obligations.FirstEdgeAfterResetMayAccept : Prop :=
  ∀ s u : State, s.now.host.rst = true → step s = .next u →
    u.queue = [] ∧
    (u.now.host.rst = false → reqReady u.now u = u.now.draws.ready) ∧
    (u.now.host.rst = false → u.now.host.reqValid = true → u.now.draws.ready = true →
      ∃ t, step u = .next t ∧ t.accepted = [u.now.host.req] ∧ t.delivered = [] ∧
        t.queue.map Entry.request = [u.now.host.req])

/-- R141: from any queue, an edge that accepts a command does not deliver it (what it delivers, if anything, is the
result of the oldest entry before the edge) and leaves it as the youngest entry; where it is then alone in the queue,
with `done` drawn true at its acceptance, the next edge delivers its result to a host that takes it. -/
def Obligations.EarliestDeliveryIsTheNextEdge : Prop :=
  ∀ s t : State, s.now.host.rst = false → accepts s.now s = true → step s = .next t →
    (t.delivered = s.delivered ∨
      ∃ e q, s.queue = e :: q ∧ t.delivered = s.delivered ++ [resultFn e.request]) ∧
    (∃ q, t.queue = q ++ [⟨s.now.host.req.cmd, s.now.host.req.a, s.now.host.req.b, s.now.draws.acceptDone⟩] ∧
      (q = [] → s.now.draws.acceptDone = true → t.now.host.rst = false → t.now.host.respReady = true →
        ∃ u, step t = .next u ∧ u.delivered = t.delivered ++ [resultFn s.now.host.req]))

/-! ## Independence -/

/-- R22, R44, R135: the response a step delivers depends on the oldest entry's command and operands alone: not on the
other entries, the parameters, the record, the draws or the host's request. -/
def Obligations.ResponseDependsOnItsCommandAlone : Prop :=
  ∀ (s s' t t' : State) (e e' : Entry) (q q' : List Entry),
    s.queue = e :: q → s'.queue = e' :: q' → e.request = e'.request →
    delivers s.now s = true → delivers s'.now s' = true → step s = .next t → step s' = .next t' →
    ∃ r, t.delivered = s.delivered ++ [r] ∧ t'.delivered = s'.delivered ++ [r]

/-- The model's choice of log entry 8 (DESIGN CHOICE: no operation reads MUL_IMPL or PDEP_IMPL): with another style, the
same `DEPTH` and the same script, the step answers the same, but for the style. The spec says less (R7, R30: unobservable
except through latency); latency is the draws of the script, which are held fixed here. -/
def Obligations.StyleOfTheDatapathsDoesNotMatter : Prop :=
  ∀ (s : State) (m : MulImpl) (p : PdepImpl),
    step { s with build := { s.build with mulImpl := m, pdepImpl := p } } =
      (match step s with
      | .next t => .next { t with build := { t.build with mulImpl := m, pdepImpl := p } }
      | .fault r => .fault r
      | .refused r => .refused r)

/-! ## Runs -/

/-- R35: the reset state meets the machine's invariant. -/
def Obligations.ResetMeetsTheInvariant : Prop := MachineInv State.reset

/-- R22, R33, R36: every step keeps the invariant: the queue fits `DEPTH`, the commands without a response are exactly
those in the queue, and the responses delivered are those of the commands accepted before them, in order. -/
def Obligations.EveryStepKeepsTheInvariant : Prop :=
  ∀ s t : State, MachineInv s → step s = .next t → MachineInv t

/-- R36: after any number of steps from a state that meets the invariant, the responses delivered since the last reset
are a prefix of the results of the commands accepted since it, in the same order. -/
def Obligations.ResponsesArePrefixOfResults : Prop :=
  ∀ (k : Nat) (s t : State), MachineInv s → core.run k s = .next t →
    t.delivered.IsPrefix (t.accepted.map resultFn) ∧ t.queue.length ≤ t.build.depth

/-- R15: where the invariant holds, a run is complete exactly where the queue is empty and `rst` is 0, and the host then
holds the result of every command accepted since the last reset. -/
def Obligations.CompleteRunAnswersEveryCommand : Prop :=
  ∀ s : State, MachineInv s →
    (RunComplete s ↔ (s.queue = [] ∧ s.now.host.rst = false)) ∧
    (RunComplete s → s.delivered = s.accepted.map resultFn)

/-- R140: in an infinite run without reset, with the Complete step weakly fair and the host taking every response it is
offered, every command accepted by cycle `n` is answered by some later cycle. The premise asks fairness of the oldest
entry alone, which is weaker than `CompletionFair` (log entry 9). -/
def Obligations.EveryAcceptedCommandIsDelivered : Prop :=
  ∀ (env : Nat → ClockCycle) (st : Nat → State), IsRun env st → MachineInv (st 0) →
    (∀ n, (env n).host.rst = false) →
    (∀ n, respValid (env n) (st n) = true → (env n).host.respReady = true) →
    OldestCompletionFair env st →
    ∀ n, ∃ m, n ≤ m ∧ (st n).accepted.length ≤ (st m).delivered.length ∧
      ((st n).accepted.map resultFn).IsPrefix (st m).delivered

/-- R140, R136, R139: in such a run, with `req_ready` weakly fair as well, every request the host has on offer in a cycle is
accepted at that or a later edge. Fairness of completion is asked of the oldest entry alone (log entry 9). -/
def Obligations.EveryOfferedRequestIsAccepted : Prop :=
  ∀ (env : Nat → ClockCycle) (st : Nat → State), IsRun env st →
    (∀ n, (env n).host.rst = false) →
    (∀ n, respValid (env n) (st n) = true → (env n).host.respReady = true) →
    OldestCompletionFair env st → ReadyFair env st →
    ∀ n, (env n).host.reqValid = true →
      ∃ m, n ≤ m ∧ accepts (env m) (st m) = true ∧ (env m).host.req = (env n).host.req ∧
        (st (m + 1)).accepted = (st m).accepted ++ [(env n).host.req]

/-- R140: in an infinite run without reset, with the Complete step weakly fair, every entry of `Q`, oldest or not, becomes
done, keeping its command and operands, whether or not the host takes a response. -/
def Obligations.EveryEntryBecomesDone : Prop :=
  ∀ (env : Nat → ClockCycle) (st : Nat → State), IsRun env st →
    (∀ n, (env n).host.rst = false) →
    CompletionFair env st →
    ∀ n a e, (st n).entryAt a = some e →
      ∃ m, n ≤ m ∧ (st m).entryAt a = some { e with done := true }

/-- R140: in an infinite run without reset, with `req_ready` weakly fair, if the queue has room at every edge from some
edge on, `req_ready` is 1 in infinitely many of those cycles. -/
def Obligations.ReadyIsOfferedAgainAndAgain : Prop :=
  ∀ (env : Nat → ClockCycle) (st : Nat → State), IsRun env st →
    (∀ n, (env n).host.rst = false) →
    ReadyFair env st →
    ∀ n, (∀ m, n ≤ m → (st m).queue.length < (st m).build.depth) →
      {m | n ≤ m ∧ reqReady (env m) (st m) = true}.Infinite

/-- R31, R22, R44: in an infinite run without reset, an entry keeps the command and operands it was accepted with, and
once done stays done, at every later cycle until it is answered, and what answers it is the result of those operands,
whatever the host drives on `req_a` and `req_b` meanwhile. -/
def Obligations.AcceptedOperandsAreKeptUntilAnswered : Prop :=
  ∀ (env : Nat → ClockCycle) (st : Nat → State), IsRun env st →
    (∀ n, (env n).host.rst = false) →
    ∀ n a e, (st n).entryAt a = some e → ∀ m, n ≤ m →
      (∃ e', (st m).entryAt a = some e' ∧ e'.request = e.request ∧ (e.done = true → e'.done = true)) ∨
        (st m).delivered[a]? = some (resultFn e.request)

/-- R13, R36: the cycle view refines the transaction view: every step is a sequence of Accept, Complete, Deliver and
Reset transitions. -/
def Obligations.EveryStepIsASequenceOfTransactions : Prop :=
  ∀ s t : State, step s = .next t → Relation.ReflTransGen Transaction s.view t.view

/-- R13, R36: every transition of the transaction view is one step under some cycle, from any state in which the host has
no request to hold. -/
def Obligations.EveryTransactionIsAStep : Prop :=
  ∀ (s : State) (v : View), s.offer = none → Transaction s.view v →
    ∃ (c : ClockCycle) (t : State), step { s with script := [c] } = .next t ∧ t.view = v

/-! ## The components -/

/-- R76, R77: the two helpers, as the bits they keep: isolate keeps the lowest set bit alone, by either formula, and
clear removes it. -/
def Obligations.HelpersIsolateAndClearTheLowestSetBit : Prop :=
  ∀ (n : Nat) (v : BitVec n),
    isolateLsb v = v &&& ~~~(v - 1#n) ∧
    (∀ i, i < n → (isolateLsb v).getLsbD i = (v.getLsbD i && decide (bitsBelow v i = 0))) ∧
    (∀ i, i < n → (clearLsb v).getLsbD i = (v.getLsbD i && decide (bitsBelow v i ≠ 0)))

/-- R72, R73: the table-driven digit counter equals the decimal length for every input, and at N = 32 its comparison fits
32 bits. -/
def Obligations.DigitDatapathIsExact : Prop :=
  (∀ x : Half, digitsRef32 x = DecimalLength x.toNat ∧ rom pow10 (rom guess32 (32 - clz x)) < 2 ^ 32) ∧ ∀ x : Word, digitsRef64 x = DecimalLength x.toNat

/-- R81, R82, R83: the de Bruijn scans equal the contract functions for every input, zero included. -/
def Obligations.ScanDatapathsAreExact : Prop :=
  (∀ x : Half, IsCtz x (ctzRef32 x) ∧ IsClz x (clzRef32 x)) ∧
  ∀ x : Word, IsCtz x (ctzRef64 x) ∧ IsClz x (clzRef64 x)

/-- R89: the SWAR tree equals the population count at both widths, and the other forms of its first and last step give
the same. -/
def Obligations.PopcountTreeIsExact : Prop :=
  (∀ x : Half, popcRef32 x = bitsBelow x 32 ∧ swarPairsBySub swar32 x = swarPairs swar32 x ∧
    swarSumByAdds32 (swarTree swar32 x) = bitsBelow x 32) ∧
  ∀ x : Word, popcRef64 x = bitsBelow x 64 ∧ swarPairsBySub swar64 x = swarPairs swar64 x ∧
    swarSumByAdds64 (swarTree swar64 x) = bitsBelow x 64

/-- R93 to R96: the multiplier and the long multiplication are exact, and no intermediate sum loses a carry. -/
def Obligations.LongMultiplicationIsExact : Prop :=
  (∀ x y : Half, (mul32 x y).toNat = x.toNat * y.toNat ∧
    (mulwRef32 x y).2.toNat * 2 ^ 32 + (mulwRef32 x y).1.toNat = x.toNat * y.toNat) ∧
  ∀ x y : Word,
    (mulwRef64 x y).2.toNat * 2 ^ 64 + (mulwRef64 x y).1.toNat = x.toNat * y.toNat ∧
    mulwMiddle x y ≤ 3 * (2 ^ 32 - 1) ∧ mulwMiddle x y / 2 ^ 32 ≤ 2 ∧
    mulwUpper x y = x.toNat * y.toNat / 2 ^ 64 ∧ mulwUpper x y ≤ 2 ^ 64 - 2

/-- R101 to R106: every path of the deposit and extract engines gives the contract value. -/
def Obligations.DepositExtractEnginesAreExact : Prop :=
  ∀ (n : Nat) (x m : BitVec n), IsPdep x m (pdepRef x m) ∧ IsPext x m (pextRef x m)

/-- R105, R106, R107: each fallback loop gives the contract value for every mask and runs exactly one iteration for each
mask bit, so at most N. -/
def Obligations.FallbackLoopsRunOncePerMaskBit : Prop :=
  ∀ (n : Nat) (x m : BitVec n),
    IsPdep x m (pdepLoop x m).1 ∧ IsPext x m (pextLoop x m).1 ∧
    (pdepLoop x m).2 = bitsBelow m n ∧ (pextLoop x m).2 = bitsBelow m n ∧ bitsBelow m n ≤ n

/-- R112: round trip, masking, zero mask and full mask, at every width. -/
def Obligations.DepositExtractLaws : Prop :=
  ∀ (n : Nat) (x m : BitVec n),
    pext (pdep x m) m = x &&& BitVec.ofNat n (2 ^ bitsBelow m n - 1) ∧
    pdep x m &&& ~~~m = 0#n ∧
    (pdep x 0#n = 0#n ∧ pext x 0#n = 0#n) ∧
    (pdep x (BitVec.allOnes n) = x ∧ pext x (BitVec.allOnes n) = x)

/-- R56: every table read of the reference datapaths is in range. -/
def Obligations.TableReadsAreInRange : Prop :=
  (∀ x : Half, 32 - clz x < guess32.length ∧ rom guess32 (32 - clz x) < 10 ∧
    ((isolateLsb x * dbmCtz) >>> 27).toNat < dbCtz.length ∧ ((smear32 x * dbmClz) >>> 27).toNat < dbClz.length) ∧
  ∀ x : Word, 64 - clz x < guess64.length ∧ rom guess64 (64 - clz x) < pow10.length
end

