-- ==== Sys2Proof/Laws/Contract.lean ====
section
/-! SUPPORT. One lemma for each contract function, saying what its result is: the meanings' proofs cite these and do not
unfold the functions. -/

namespace Sys2Proof.Machine

/-- The digits of the repeated division are as many as the library's, where the fuel is enough. -/
theorem decimalDigits_length (fuel v : Nat) (h : v ≤ fuel) : (decimalDigits fuel v).length = DecimalLength v := by
  induction fuel generalizing v with
  | zero =>
    obtain rfl : v = 0 := by omega
    rfl
  | succ fuel ih =>
    by_cases hv : v < 10
    · by_cases h0 : v = 0
      · simp [decimalDigits, DecimalLength, h0]
      · simp [decimalDigits, DecimalLength, hv, h0]
    · have hd : v / 10 ≠ 0 := by omega
      have h0 : v ≠ 0 := by omega
      have ih' := ih (v / 10) (by omega)
      simp only [DecimalLength, hd, if_false] at ih'
      rw [DecimalLength, if_neg h0, Nat.digits_def' (by decide) (by omega)]
      simp [decimalDigits, hv, ih']

/-- `DIGITS_N` is the decimal length. -/
theorem digits_eq {n : Nat} (x : BitVec n) : digits x = DecimalLength x.toNat :=
  decimalDigits_length _ _ (Nat.le_refl _)

/-- A value is 0 exactly where it has no set bit below its width. -/
theorem eq_zero_iff_no_bit {n : Nat} (x : BitVec n) : x = 0#n ↔ ∀ i, i < n → x.getLsbD i = false := by
  constructor
  · rintro rfl i -
    simp
  · intro h
    apply BitVec.eq_of_getLsbD_eq
    intro i hi
    simpa using h i hi

/-- `CTZ_N` is the lowest set bit, or the width. -/
theorem isCtz_ctz {n : Nat} (x : BitVec n) : IsCtz x (ctz x) := by
  unfold IsCtz ctz
  cases h : (List.range n).find? (fun i => x.getLsbD i) with
  | none =>
    rw [List.find?_eq_none] at h
    have hx : x = 0#n := (eq_zero_iff_no_bit x).2 fun i hi => by simpa using h i (List.mem_range.2 hi)
    simp [hx]
  | some i =>
    rw [List.find?_range_eq_some] at h
    obtain ⟨hi, -, hlow⟩ := h
    have hx : x ≠ 0#n := by
      rintro rfl
      simp at hi
    simp only [hx, if_false]
    exact ⟨hi, fun j hj => by simpa using hlow j hj⟩

/-- The last position of a range that satisfies a test, found from the top. -/
theorem find?_reverse_range (p : Nat → Bool) (n : Nat) :
    match (List.range n).reverse.find? p with
    | some i => i < n ∧ p i = true ∧ ∀ j, i < j → j < n → p j = false
    | none => ∀ j, j < n → p j = false := by
  induction n with
  | zero => simp
  | succ n ih =>
    rw [List.range_succ, List.reverse_append]
    cases hp : p n with
    | true =>
      simp only [List.reverse_singleton, List.singleton_append, List.find?_cons, hp]
      exact ⟨by omega, trivial, fun j h1 h2 => by omega⟩
    | false =>
      simp only [List.reverse_singleton, List.singleton_append, List.find?_cons, hp]
      cases hf : (List.range n).reverse.find? p with
      | some i =>
        rw [hf] at ih
        obtain ⟨h1, h2, h3⟩ := ih
        refine ⟨by omega, h2, fun j hj hn => ?_⟩
        rcases Nat.lt_succ_iff_lt_or_eq.1 hn with h | rfl
        · exact h3 j hj h
        · exact hp
      | none =>
        rw [hf] at ih
        intro j hn
        rcases Nat.lt_succ_iff_lt_or_eq.1 hn with h | rfl
        · exact ih j h
        · exact hp

/-- `CLZ_N` is N - 1 less the highest set bit, or the width. -/
theorem isClz_clz {n : Nat} (x : BitVec n) : IsClz x (clz x) := by
  have h := find?_reverse_range (fun i => x.getLsbD i) n
  unfold IsClz clz
  cases hf : (List.range n).reverse.find? (fun i => x.getLsbD i) with
  | some i =>
    rw [hf] at h
    obtain ⟨hi, hb, hhigh⟩ := h
    have hx : x ≠ 0#n := by
      rintro rfl
      simp at hb
    simp only [hx, if_false]
    refine ⟨i, hb, fun j hj => ?_, rfl⟩
    by_cases hn : j < n
    · exact hhigh j hj hn
    · exact BitVec.getLsbD_of_ge x j (by omega)
  | none =>
    rw [hf] at h
    exact (if_pos ((eq_zero_iff_no_bit x).2 h)).mpr rfl

/-- The set bits of a range, counted and summed. -/
theorem countP_range_eq {n : Nat} (x : BitVec n) (k : Nat) :
    (List.range k).countP (fun i => x.getLsbD i) = bitsBelow x k := by
  induction k with
  | zero => rfl
  | succ k ih =>
    rw [List.range_succ, List.countP_append, ih, bitsBelow, bitsBelow, Finset.sum_range_succ]
    cases h : x.getLsbD k <;> simp [h]

/-- `POPC_N` is the sum of the bits. -/
theorem popc_eq {n : Nat} (x : BitVec n) : popc x = bitsBelow x n := countP_range_eq x n

/-- One more bit. -/
theorem bitsBelow_succ {n : Nat} (x : BitVec n) (k : Nat) :
    bitsBelow x (k + 1) = bitsBelow x k + (x.getLsbD k).toNat := by
  simp [bitsBelow, Finset.sum_range_succ]

/-- There are at most as many set bits as positions. -/
theorem bitsBelow_le {n : Nat} (x : BitVec n) (k : Nat) : bitsBelow x k ≤ k := by
  induction k with
  | zero => simp [bitsBelow]
  | succ k ih =>
    rw [bitsBelow_succ]
    have := Bool.toNat_le (x.getLsbD k)
    omega

/-- More positions, no fewer set bits. -/
theorem bitsBelow_mono {n : Nat} (x : BitVec n) {i k : Nat} (h : i ≤ k) : bitsBelow x i ≤ bitsBelow x k :=
  Finset.sum_le_sum_of_subset (Finset.range_mono h)

/-- The two halves recombine to the exact product. -/
theorem mulw_recombine {n : Nat} (x y : BitVec n) :
    (mulwHigh x y).toNat * 2 ^ n + (mulwLow x y).toNat = x.toNat * y.toNat := by
  have hlt : x.toNat * y.toNat / 2 ^ n < 2 ^ n := by
    rw [Nat.div_lt_iff_lt_mul (Nat.two_pow_pos n)]
    exact Nat.mul_lt_mul'' x.isLt y.isLt
  simp only [mulwHigh, mulwLow, BitVec.toNat_ofNat, Nat.mod_eq_of_lt hlt]
  exact Nat.div_add_mod' _ _

/-- The sum over two runs of positions. -/
theorem moveBits_append {n : Nat} (x : BitVec n) (src dst : Nat → Nat → Nat) (j : Nat) (ps qs : List Nat) :
    moveBits x src dst j (ps ++ qs) = moveBits x src dst j ps + moveBits x src dst (j + ps.length) qs := by
  induction ps generalizing j with
  | nil => simp [moveBits]
  | cons p ps ih =>
    have hj : j + 1 + ps.length = j + (ps.length + 1) := by omega
    simp [moveBits, ih, hj, Nat.add_assoc]

/-- The mask positions below `k`. -/
def positionsBelow {n : Nat} (m : BitVec n) (k : Nat) : List Nat := (List.range k).filter (fun i => m.getLsbD i)

/-- The sum over the mask positions below `k + 1`. -/
theorem moveBits_succ {n : Nat} (x m : BitVec n) (src dst : Nat → Nat → Nat) (k : Nat) :
    moveBits x src dst 0 (positionsBelow m (k + 1)) =
      moveBits x src dst 0 (positionsBelow m k) +
        (if m.getLsbD k = true then (x.getLsbD (src (bitsBelow m k) k)).toNat * 2 ^ dst (bitsBelow m k) k else 0) := by
  have hl : (positionsBelow m k).length = bitsBelow m k := by
    rw [← countP_range_eq, List.countP_eq_length_filter]
    rfl
  rw [positionsBelow, List.range_succ, List.filter_append, moveBits_append]
  change _ + moveBits x src dst (0 + (positionsBelow m k).length) _ = _
  rw [hl]
  cases h : m.getLsbD k <;> simp [moveBits, positionsBelow, h]

/-- The deposit's sum below `k` stays below 2^k, and its bits are as the contract says. -/
theorem deposit_below {n : Nat} (x m : BitVec n) (k : Nat) :
    moveBits x (fun j _ => j) (fun _ p => p) 0 (positionsBelow m k) < 2 ^ k ∧
    ∀ i, (moveBits x (fun j _ => j) (fun _ p => p) 0 (positionsBelow m k)).testBit i =
      (decide (i < k) && (m.getLsbD i && x.getLsbD (bitsBelow m i))) := by
  induction k with
  | zero => simp [positionsBelow, moveBits]
  | succ k ih =>
    obtain ⟨hlt, hbit⟩ := ih
    rw [moveBits_succ]
    generalize moveBits x (fun j _ => j) (fun _ p => p) 0 (positionsBelow m k) = d at hlt hbit
    generalize hb : (m.getLsbD k && x.getLsbD (bitsBelow m k)) = b
    have hsum : d + (if m.getLsbD k = true then (x.getLsbD (bitsBelow m k)).toNat * 2 ^ k else 0) =
        2 ^ k * b.toNat + d := by
      subst hb
      cases m.getLsbD k <;> simp [Nat.mul_comm, Nat.add_comm]
    rw [hsum]
    refine ⟨?_, fun i => ?_⟩
    · have := Bool.toNat_le b
      have : 2 ^ k * b.toNat ≤ 2 ^ k * 1 := Nat.mul_le_mul_left _ this
      rw [Nat.pow_succ]
      omega
    · rw [Nat.testBit_two_pow_mul_add _ hlt]
      by_cases hi : i < k
      · simp [hi, hbit, Nat.lt_succ_of_lt hi]
      · by_cases he : i = k
        · subst he
          cases b <;> simp [hb]
        · have h2 : ¬ i < k + 1 := by omega
          have h3 : (1 : Nat).testBit (i - k) = false := Nat.testBit_lt_two_pow (Nat.one_lt_two_pow (by omega))
          cases b <;> simp [hi, h2, h3]

/-- `PDEP_N` scatters as its contract says. -/
theorem isPdep_pdep {n : Nat} (x m : BitVec n) : IsPdep x m (pdep x m) := by
  intro i hi
  have h := (deposit_below x m n).2 i
  rw [pdep, BitVec.getLsbD_ofNat]
  change (decide (i < n) && (moveBits x (fun j _ => j) (fun _ p => p) 0 (positionsBelow m n)).testBit i) = _
  rw [h]
  simp [hi]

/-- The extract's sum below `k` stays below 2 to the number of mask bits, and its bits are as the contract says. -/
theorem extract_below {n : Nat} (x m : BitVec n) (k : Nat) :
    moveBits x (fun _ p => p) (fun j _ => j) 0 (positionsBelow m k) < 2 ^ bitsBelow m k ∧
    ∀ i, i < k → m.getLsbD i = true →
      (moveBits x (fun _ p => p) (fun j _ => j) 0 (positionsBelow m k)).testBit (bitsBelow m i) = x.getLsbD i := by
  induction k with
  | zero => simp [positionsBelow, moveBits, bitsBelow]
  | succ k ih =>
    obtain ⟨hlt, hbit⟩ := ih
    rw [moveBits_succ, bitsBelow_succ]
    generalize moveBits x (fun _ p => p) (fun j _ => j) 0 (positionsBelow m k) = d at hlt hbit
    cases hm : m.getLsbD k with
    | false =>
      refine ⟨by simpa using hlt, fun i hi hmi => ?_⟩
      have hik : i ≠ k := by
        rintro rfl
        simp [hm] at hmi
      simpa using hbit i (by omega) hmi
    | true =>
      have hsum : d + (if true = true then (x.getLsbD k).toNat * 2 ^ bitsBelow m k else 0) =
          2 ^ bitsBelow m k * (x.getLsbD k).toNat + d := by
        simp [Nat.mul_comm, Nat.add_comm]
      rw [hsum]
      refine ⟨?_, fun i hi hmi => ?_⟩
      · have h1 := Bool.toNat_le (x.getLsbD k)
        have h2 : 2 ^ bitsBelow m k * (x.getLsbD k).toNat ≤ 2 ^ bitsBelow m k * 1 := Nat.mul_le_mul_left _ h1
        rw [Bool.toNat_true, Nat.pow_succ]
        omega
      · rw [Nat.testBit_two_pow_mul_add _ hlt]
        by_cases hik : i = k
        · subst hik
          cases x.getLsbD i <;> simp
        · have hlow : bitsBelow m i < bitsBelow m k := by
            have h1 : bitsBelow m (i + 1) = bitsBelow m i + 1 := by simp [bitsBelow_succ, hmi]
            have h2 := bitsBelow_mono m (show i + 1 ≤ k by omega)
            omega
          simp [hlow, hbit i (by omega) hmi]

/-- `PEXT_N` gathers as its contract says. -/
theorem isPext_pext {n : Nat} (x m : BitVec n) : IsPext x m (pext x m) := by
  obtain ⟨hlt, hbit⟩ := extract_below x m n
  have hget : ∀ j, (pext x m).getLsbD j =
      (decide (j < n) && (moveBits x (fun _ p => p) (fun j _ => j) 0 (positionsBelow m n)).testBit j) := fun j => by
    rw [pext, BitVec.getLsbD_ofNat]
    rfl
  refine ⟨fun i hi hmi => ?_, fun j hj => ?_⟩
  · have h : bitsBelow m i < n := Nat.lt_of_le_of_lt (bitsBelow_le m i) hi
    rw [hget, hbit i hi hmi]
    simp [h]
  · rw [hget, Nat.testBit_lt_two_pow (Nat.lt_of_lt_of_le hlt (Nat.pow_le_pow_right (by decide) hj))]
    simp

end Sys2Proof.Machine
end

