-- ==== Sys2Proof/Laws/State.lean ====
section
/-! SUPPORT. What each named update of the state does to each field: all by rfl, for simp. -/

namespace Sys2Proof.Machine

@[simp] theorem State.answer_build (s : State) (r : Response) : (s.answer r).build = s.build := rfl
@[simp] theorem State.answer_queue (s : State) (r : Response) : (s.answer r).queue = s.queue.tail := rfl
@[simp] theorem State.answer_offer (s : State) (r : Response) : (s.answer r).offer = s.offer := rfl
@[simp] theorem State.answer_cycle (s : State) (r : Response) : (s.answer r).cycle = s.cycle := rfl
@[simp] theorem State.answer_script (s : State) (r : Response) : (s.answer r).script = s.script := rfl
@[simp] theorem State.answer_accepted (s : State) (r : Response) : (s.answer r).accepted = s.accepted := rfl
@[simp] theorem State.answer_delivered (s : State) (r : Response) : (s.answer r).delivered = s.delivered ++ [r] := rfl
@[simp] theorem State.answer_earlier (s : State) (r : Response) : (s.answer r).earlier = s.earlier := rfl

@[simp] theorem State.complete_build (s : State) (ks : List Nat) : (s.complete ks).build = s.build := rfl
@[simp] theorem State.complete_queue (s : State) (ks : List Nat) : (s.complete ks).queue = completeEntries ks 0 s.queue := rfl
@[simp] theorem State.complete_offer (s : State) (ks : List Nat) : (s.complete ks).offer = s.offer := rfl
@[simp] theorem State.complete_cycle (s : State) (ks : List Nat) : (s.complete ks).cycle = s.cycle := rfl
@[simp] theorem State.complete_script (s : State) (ks : List Nat) : (s.complete ks).script = s.script := rfl
@[simp] theorem State.complete_accepted (s : State) (ks : List Nat) : (s.complete ks).accepted = s.accepted := rfl
@[simp] theorem State.complete_delivered (s : State) (ks : List Nat) : (s.complete ks).delivered = s.delivered := rfl
@[simp] theorem State.complete_earlier (s : State) (ks : List Nat) : (s.complete ks).earlier = s.earlier := rfl

@[simp] theorem State.accept_build (s : State) (r : Request) (d : Bool) : (s.accept r d).build = s.build := rfl
@[simp] theorem State.accept_queue (s : State) (r : Request) (d : Bool) : (s.accept r d).queue = s.queue ++ [⟨r.cmd, r.a, r.b, d⟩] := rfl
@[simp] theorem State.accept_offer (s : State) (r : Request) (d : Bool) : (s.accept r d).offer = none := rfl
@[simp] theorem State.accept_cycle (s : State) (r : Request) (d : Bool) : (s.accept r d).cycle = s.cycle := rfl
@[simp] theorem State.accept_script (s : State) (r : Request) (d : Bool) : (s.accept r d).script = s.script := rfl
@[simp] theorem State.accept_accepted (s : State) (r : Request) (d : Bool) : (s.accept r d).accepted = s.accepted ++ [r] := rfl
@[simp] theorem State.accept_delivered (s : State) (r : Request) (d : Bool) : (s.accept r d).delivered = s.delivered := rfl
@[simp] theorem State.accept_earlier (s : State) (r : Request) (d : Bool) : (s.accept r d).earlier = s.earlier := rfl

@[simp] theorem State.setOffer_build (s : State) (o : Option Request) : (s.setOffer o).build = s.build := rfl
@[simp] theorem State.setOffer_queue (s : State) (o : Option Request) : (s.setOffer o).queue = s.queue := rfl
@[simp] theorem State.setOffer_offer (s : State) (o : Option Request) : (s.setOffer o).offer = o := rfl
@[simp] theorem State.setOffer_cycle (s : State) (o : Option Request) : (s.setOffer o).cycle = s.cycle := rfl
@[simp] theorem State.setOffer_script (s : State) (o : Option Request) : (s.setOffer o).script = s.script := rfl
@[simp] theorem State.setOffer_accepted (s : State) (o : Option Request) : (s.setOffer o).accepted = s.accepted := rfl
@[simp] theorem State.setOffer_delivered (s : State) (o : Option Request) : (s.setOffer o).delivered = s.delivered := rfl
@[simp] theorem State.setOffer_earlier (s : State) (o : Option Request) : (s.setOffer o).earlier = s.earlier := rfl

@[simp] theorem State.clear_build (s : State) : (s.clear).build = s.build := rfl
@[simp] theorem State.clear_queue (s : State) : (s.clear).queue = [] := rfl
@[simp] theorem State.clear_offer (s : State) : (s.clear).offer = none := rfl
@[simp] theorem State.clear_cycle (s : State) : (s.clear).cycle = s.cycle := rfl
@[simp] theorem State.clear_script (s : State) : (s.clear).script = s.script := rfl
@[simp] theorem State.clear_accepted (s : State) : (s.clear).accepted = [] := rfl
@[simp] theorem State.clear_delivered (s : State) : (s.clear).delivered = [] := rfl
@[simp] theorem State.clear_earlier (s : State) : (s.clear).earlier = s.earlier ++ s.delivered := rfl

@[simp] theorem State.tick_build (s : State) : (s.tick).build = s.build := rfl
@[simp] theorem State.tick_queue (s : State) : (s.tick).queue = s.queue := rfl
@[simp] theorem State.tick_offer (s : State) : (s.tick).offer = s.offer := rfl
@[simp] theorem State.tick_cycle (s : State) : (s.tick).cycle = s.cycle + 1 := rfl
@[simp] theorem State.tick_script (s : State) : (s.tick).script = s.script := rfl
@[simp] theorem State.tick_accepted (s : State) : (s.tick).accepted = s.accepted := rfl
@[simp] theorem State.tick_delivered (s : State) : (s.tick).delivered = s.delivered := rfl
@[simp] theorem State.tick_earlier (s : State) : (s.tick).earlier = s.earlier := rfl

@[simp] theorem State.popScript_build (s : State) : (s.popScript).build = s.build := rfl
@[simp] theorem State.popScript_queue (s : State) : (s.popScript).queue = s.queue := rfl
@[simp] theorem State.popScript_offer (s : State) : (s.popScript).offer = s.offer := rfl
@[simp] theorem State.popScript_cycle (s : State) : (s.popScript).cycle = s.cycle := rfl
@[simp] theorem State.popScript_script (s : State) : (s.popScript).script = s.script.tail := rfl
@[simp] theorem State.popScript_accepted (s : State) : (s.popScript).accepted = s.accepted := rfl
@[simp] theorem State.popScript_delivered (s : State) : (s.popScript).delivered = s.delivered := rfl
@[simp] theorem State.popScript_earlier (s : State) : (s.popScript).earlier = s.earlier := rfl

end Sys2Proof.Machine
end

