-- ==== Sys2Proof/Laws/Ops.lean ====
section
/-! SUPPORT. One lemma for each shared operation, saying all it can do: delivery, completion, the meanings as one
delivery each, decoding of encoded commands. -/

namespace Sys2Proof.Machine

/-- Delivery from a queue whose oldest entry is done. -/
theorem deliver_of_done (f : Word → Word → Response) {s : State} {e : Entry} {q : List Entry}
    (hq : s.queue = e :: q) (hd : e.done = true) : deliver f s = .next (s.answer (f e.a e.b)) := by
  simp [deliver, hq, hd]

/-- Delivery where no response is offered. -/
theorem deliver_of_not_oldestDone (f : Word → Word → Response) {s : State} (h : s.oldestDone = false) :
    deliver f s = .fault .noResponseOffered := by
  unfold deliver
  unfold State.oldestDone at h
  split <;> simp_all

/-- Everything a delivery that answers a next state can have done. -/
theorem deliver_cases {f : Word → Word → Response} {s t : State} (h : deliver f s = .next t) :
    ∃ e q, s.queue = e :: q ∧ e.done = true ∧ t = s.answer (f e.a e.b) := by
  unfold deliver at h
  split at h
  · rename_i e q hq
    split at h
    · rename_i hd
      cases h
      exact ⟨e, q, hq, hd, rfl⟩
    · cases h
  · cases h

/-- Every meaning is the delivery of its command's response. -/
theorem exec_eq_deliver (i : Instr) (s : State) : exec i s = deliver (respond i) s := by
  cases i <;> rfl

/-- A response is offered exactly where the queue's oldest entry is done. -/
theorem State.oldestDone_iff (s : State) :
    s.oldestDone = true ↔ ∃ e q, s.queue = e :: q ∧ e.done = true := by
  unfold State.oldestDone
  split
  · rename_i e q hq
    simp [hq]
  · rename_i hq
    simp [hq]

/-- The decoder reads every command's byte as that command. -/
@[simp] theorem decodeCmd_encode (i : Instr) : decodeCmd (encode i) = .ok i := by
  cases i <;> rfl

/-- The result function at a command's byte. -/
@[simp] theorem resultFn_encode (i : Instr) (a b : Word) : resultFn ⟨encode i, a, b⟩ = respond i a b := by
  simp [resultFn]

/-- Completion keeps the number of entries. -/
@[simp] theorem completeEntries_length (ks : List Nat) (k : Nat) (q : List Entry) :
    (completeEntries ks k q).length = q.length := by
  induction q generalizing k with
  | nil => rfl
  | cons e q ih => simp [completeEntries, ih]

/-- Completion keeps every command and operand. -/
@[simp] theorem completeEntries_map_request (ks : List Nat) (k : Nat) (q : List Entry) :
    (completeEntries ks k q).map Entry.request = q.map Entry.request := by
  induction q generalizing k with
  | nil => rfl
  | cons e q ih =>
    simp only [completeEntries, List.map_cons, ih, List.cons.injEq, and_true]
    split <;> rfl

/-- Completion, entry by entry: an entry is done afterwards where it was before or its position is drawn. -/
theorem completeEntries_getElem? (ks : List Nat) (k : Nat) (q : List Entry) (j : Nat) :
    (completeEntries ks k q)[j]? = q[j]?.map fun e => { e with done := e.done || decide (k + j ∈ ks) } := by
  induction q generalizing k j with
  | nil => rfl
  | cons e q ih =>
    cases j with
    | zero =>
      by_cases h : k ∈ ks <;> simp [completeEntries, h]
    | succ j =>
      have hk : k + 1 + j = k + (j + 1) := by omega
      simp [completeEntries, ih, hk]

end Sys2Proof.Machine
end

