-- ==== Sys2Proof/Laws/Edge.lean ====
section
/-! SUPPORT. What one rising edge can do, said once: delivery of the ports' response, then the rest of the edge. -/

namespace Sys2Proof.Machine

/-- The oldest command, run where its entry is done, answers its result: legal or illegal. -/
theorem runOldest_of_done {s : State} {e : Entry} {q : List Entry} (hq : s.queue = e :: q) (hd : e.done = true) :
    runOldest s = .next (s.answer (resultFn e.request)) := by
  unfold runOldest resultFn
  simp only [hq]
  show (match decodeCmd e.cmd with | .ok i => exec i s | .error _ => raiseIllegal s) =
    .next (s.answer (match decodeCmd e.cmd with | .ok i => respond i e.a e.b | .error _ => illegalResponse))
  cases decodeCmd e.cmd with
  | ok i => simp only [exec_eq_deliver, deliver_of_done (respond i) hq hd]
  | error x => simp only [raiseIllegal, deliver_of_done _ hq hd]

/-- A response is offered in a cycle exactly where it is not in reset and the oldest entry is done. -/
theorem respValid_iff (c : ClockCycle) (s : State) :
    respValid c s = true ↔ c.host.rst = false ∧ ∃ e q, s.queue = e :: q ∧ e.done = true := by
  simp [respValid, State.oldestDone_iff]

/-- The ports show the oldest entry's result where a response is offered. -/
theorem respPorts_of_valid {c : ClockCycle} {s : State} {e : Entry} {q : List Entry} (hv : respValid c s = true)
    (hq : s.queue = e :: q) : respPorts c s = resultFn e.request := by
  simp [respPorts, hv, hq]

/-- The delivery part of an edge: the host receives what the ports show, or nothing is delivered. -/
theorem deliveryPart_eq (c : ClockCycle) (s : State) :
    deliveryPart c s = .next (if delivers c s = true then s.answer (respPorts c s) else s) := by
  unfold deliveryPart
  by_cases h : delivers c s = true
  · have hv : respValid c s = true := by
      simp only [delivers, Bool.and_eq_true] at h
      exact h.2
    obtain ⟨-, e, q, hq, hd⟩ := (respValid_iff c s).1 hv
    simp only [h, if_true, runOldest_of_done hq hd, respPorts_of_valid hv hq]
  · simp [h]

/-- One edge, as an equation: the reset, the host without a move, and the ordinary edge. -/
theorem edge_eq (c : ClockCycle) (s : State) :
    edge c s =
      if c.host.rst = true then .next s.clear.tick
      else if offerHeld c s = true then
        .next (afterDelivery c (accepts c s) (if delivers c s = true then s.answer (respPorts c s) else s))
      else .refused .requestNotHeld := by
  unfold edge
  simp only [deliveryPart_eq]

/-- Everything an edge that answers a next state can have done. -/
theorem edge_cases {c : ClockCycle} {s t : State} (h : edge c s = .next t) :
    (c.host.rst = true ∧ t = s.clear.tick) ∨
    (c.host.rst = false ∧ offerHeld c s = true ∧
      t = afterDelivery c (accepts c s) (if delivers c s = true then s.answer (respPorts c s) else s)) := by
  rw [edge_eq] at h
  by_cases hr : c.host.rst = true
  · simp only [hr, if_true, Host.Outcome.next.injEq] at h
    exact .inl ⟨hr, h.symm⟩
  · by_cases ho : offerHeld c s = true
    · simp only [hr, ho, if_true] at h
      exact .inr ⟨by simpa using hr, ho, by simpa using h.symm⟩
    · simp [hr, ho] at h

/-- The queue after the rest of an edge. -/
theorem afterDelivery_queue (c : ClockCycle) (acc : Bool) (s : State) :
    (afterDelivery c acc s).queue = completeEntries c.draws.completing 0 s.queue ++
      (if acc = true then [⟨c.host.req.cmd, c.host.req.a, c.host.req.b, c.draws.acceptDone⟩] else []) := by
  cases acc <;> simp [afterDelivery, acceptancePart]

/-- The accepted requests after the rest of an edge. -/
theorem afterDelivery_accepted (c : ClockCycle) (acc : Bool) (s : State) :
    (afterDelivery c acc s).accepted = s.accepted ++ (if acc = true then [c.host.req] else []) := by
  cases acc <;> simp [afterDelivery, acceptancePart]

/-- The request the host has to hold after the rest of an edge. -/
theorem afterDelivery_offer (c : ClockCycle) (acc : Bool) (s : State) :
    (afterDelivery c acc s).offer =
      if acc = true then none else if c.host.reqValid = true then some c.host.req else none := by
  cases acc <;> simp [afterDelivery, acceptancePart]

/-- The rest of an edge delivers nothing. -/
@[simp] theorem afterDelivery_delivered (c : ClockCycle) (acc : Bool) (s : State) :
    (afterDelivery c acc s).delivered = s.delivered := by
  cases acc <;> simp [afterDelivery, acceptancePart]

@[simp] theorem afterDelivery_earlier (c : ClockCycle) (acc : Bool) (s : State) :
    (afterDelivery c acc s).earlier = s.earlier := by
  cases acc <;> simp [afterDelivery, acceptancePart]

@[simp] theorem afterDelivery_build (c : ClockCycle) (acc : Bool) (s : State) :
    (afterDelivery c acc s).build = s.build := by
  cases acc <;> simp [afterDelivery, acceptancePart]

@[simp] theorem afterDelivery_script (c : ClockCycle) (acc : Bool) (s : State) :
    (afterDelivery c acc s).script = s.script := by
  cases acc <;> simp [afterDelivery, acceptancePart]

@[simp] theorem afterDelivery_cycle (c : ClockCycle) (acc : Bool) (s : State) :
    (afterDelivery c acc s).cycle = s.cycle + 1 := by
  cases acc <;> simp [afterDelivery, acceptancePart]

/-- The port functions do not read the script. -/
@[simp] theorem reqReady_popScript (c : ClockCycle) (s : State) : reqReady c s.popScript = reqReady c s := rfl

@[simp] theorem respValid_popScript (c : ClockCycle) (s : State) : respValid c s.popScript = respValid c s := rfl

@[simp] theorem respPorts_popScript (c : ClockCycle) (s : State) : respPorts c s.popScript = respPorts c s := rfl

@[simp] theorem delivers_popScript (c : ClockCycle) (s : State) : delivers c s.popScript = delivers c s := rfl

@[simp] theorem accepts_popScript (c : ClockCycle) (s : State) : accepts c s.popScript = accepts c s := rfl

@[simp] theorem offerHeld_popScript (c : ClockCycle) (s : State) : offerHeld c s.popScript = offerHeld c s := rfl

/-- Everything a step that answers a next state can have done. -/
theorem step_cases {s t : State} (h : step s = .next t) :
    (s.now.host.rst = true ∧ t = s.popScript.clear.tick) ∨
    (s.now.host.rst = false ∧ offerHeld s.now s = true ∧
      t = afterDelivery s.now (accepts s.now s)
        (if delivers s.now s = true then s.popScript.answer (respPorts s.now s) else s.popScript)) := by
  exact edge_cases h

end Sys2Proof.Machine
end

