-- ==== Sys2Proof/Laws/PerInstr.lean ====
section
/-! SUPPORT. Statements for every command, one lemma for each: the fields of its byte (30_encoding.md R58 to R61). -/

namespace Sys2Proof.Laws.CommandByte

/-- The byte of `i` has `RSV = 0`, its `FUNC` selects the function of `i`, its `W` the width of `i`, and the two name
`i`. -/
def Statement (i : Instr) : Prop :=
  rsvField (encode i) = 0#4 ∧ funcOf (funcField (encode i)) = some i.func ∧
    widthOf (wField (encode i)) = i.width ∧ Instr.of i.func i.width = i

theorem digitsW : Statement .digitsW := ⟨rfl, rfl, rfl, rfl⟩

theorem digitsD : Statement .digitsD := ⟨rfl, rfl, rfl, rfl⟩

theorem ctzW : Statement .ctzW := ⟨rfl, rfl, rfl, rfl⟩

theorem ctzD : Statement .ctzD := ⟨rfl, rfl, rfl, rfl⟩

theorem clzW : Statement .clzW := ⟨rfl, rfl, rfl, rfl⟩

theorem clzD : Statement .clzD := ⟨rfl, rfl, rfl, rfl⟩

theorem popcW : Statement .popcW := ⟨rfl, rfl, rfl, rfl⟩

theorem popcD : Statement .popcD := ⟨rfl, rfl, rfl, rfl⟩

theorem mulwW : Statement .mulwW := ⟨rfl, rfl, rfl, rfl⟩

theorem mulwD : Statement .mulwD := ⟨rfl, rfl, rfl, rfl⟩

theorem pdepW : Statement .pdepW := ⟨rfl, rfl, rfl, rfl⟩

theorem pdepD : Statement .pdepD := ⟨rfl, rfl, rfl, rfl⟩

theorem pextW : Statement .pextW := ⟨rfl, rfl, rfl, rfl⟩

theorem pextD : Statement .pextD := ⟨rfl, rfl, rfl, rfl⟩

end Sys2Proof.Laws.CommandByte
end

