-- ==== Sys2Proof/Laws/Runs.lean ====
section
/-! SUPPORT. What one edge does to a numbered entry, said once, and how the two fairness premises of completion relate. -/

namespace Sys2Proof.Machine

/-- The entry with number `a`, where its number is not below those delivered. -/
theorem State.entryAt_some {s : State} {a : Nat} {e : Entry} :
    s.entryAt a = some e ↔ s.delivered.length ≤ a ∧ s.queue[a - s.delivered.length]? = some e := by
  unfold State.entryAt
  split <;> simp_all

/-- The oldest entry's number is the number of responses delivered. -/
theorem State.entryAt_oldest (s : State) : s.entryAt s.delivered.length = s.queue[0]? := by
  simp [State.entryAt]

/-- An edge without reset, as an equation. -/
theorem edge_of_no_reset {c : ClockCycle} {s t : State} (hr : c.host.rst = false) (h : edge c s = .next t) :
    t = afterDelivery c (accepts c s) (if delivers c s = true then s.answer (respPorts c s) else s) := by
  rcases edge_cases h with ⟨hr', -⟩ | ⟨-, -, ht⟩
  · simp [hr] at hr'
  · exact ht

/-- An entry of the queue that the edge's delivery leaves keeps its place and is done where it was or is drawn to be. -/
theorem afterDelivery_getElem? (c : ClockCycle) (acc : Bool) (u : State) {k : Nat} {e : Entry}
    (h : u.queue[k]? = some e) :
    (afterDelivery c acc u).queue[k]? = some { e with done := e.done || decide (k ∈ c.draws.completing) } := by
  have hk := (List.getElem?_eq_some_iff.1 h).1
  rw [afterDelivery_queue, List.getElem?_append_left (by simpa using hk), completeEntries_getElem?, h]
  simp

/-- Everything an edge without reset can do to entry number `a`: deliver its result, or keep it, done where it was or
where its position after the delivery is drawn. -/
theorem entryAt_edge {c : ClockCycle} {s t : State} {a : Nat} {e : Entry} (hr : c.host.rst = false)
    (h : edge c s = .next t) (he : s.entryAt a = some e) :
    (a = s.delivered.length ∧ t.delivered = s.delivered ++ [resultFn e.request]) ∨
    t.entryAt a =
      some { e with done := e.done || decide (a - t.delivered.length ∈ c.draws.completing) } := by
  obtain ⟨ha, hk⟩ := State.entryAt_some.1 he
  rw [edge_of_no_reset hr h]
  by_cases hd : delivers c s = true
  · have hv : respValid c s = true := by
      simp only [delivers, Bool.and_eq_true] at hd
      exact hd.2
    obtain ⟨-, e₀, q, hq, -⟩ := (respValid_iff c s).1 hv
    rcases Nat.eq_or_lt_of_le ha with rfl | hlt
    · left
      have he₀ : e₀ = e := by simpa [hq] using hk
      simp [hd, respPorts_of_valid hv hq, he₀]
    · right
      have hk' : q[a - (s.delivered.length + 1)]? = some e := by
        rw [hq, show a - s.delivered.length = a - (s.delivered.length + 1) + 1 by omega] at hk
        simpa using hk
      simp only [hd, if_true, State.entryAt_some, afterDelivery_delivered]
      refine ⟨by simpa using hlt, ?_⟩
      rw [afterDelivery_getElem? c _ _ (e := e)]
      simpa [hq] using hk'
  · right
    simp only [hd, State.entryAt_some, afterDelivery_delivered]
    exact ⟨ha, afterDelivery_getElem? c _ _ hk⟩

/-- In a run without reset, fairness for every entry gives fairness for the oldest. -/
theorem CompletionFair.oldest {env : Nat → ClockCycle} {st : Nat → State} (run : IsRun env st)
    (hr : ∀ n, (env n).host.rst = false) (fair : CompletionFair env st) : OldestCompletionFair env st := by
  intro n hpend
  have nothing : ∀ m, n ≤ m → (st (m + 1)).delivered = (st m).delivered := by
    intro m hm
    have hd : delivers (env m) (st m) = false := by simp [delivers, respValid, (hpend m hm).2]
    rw [edge_of_no_reset (hr m) (run m)]
    simp [hd]
  have same : ∀ m, n ≤ m → (st m).delivered = (st n).delivered := by
    intro m hm
    induction m, hm using Nat.le_induction with
    | base => rfl
    | succ m hm ih => rw [nothing m hm, ih]
  obtain ⟨m, hm, hdraw⟩ := fair n (st n).delivered.length (fun m hm => by
    rw [← same m hm, State.entryAt_oldest]
    obtain ⟨hne, hod⟩ := hpend m hm
    cases hq : (st m).queue with
    | nil => exact absurd hq hne
    | cons e q =>
      refine ⟨e, rfl, ?_⟩
      simpa [State.oldestDone, hq] using hod)
  refine ⟨m, hm, ?_⟩
  simpa [same (m + 1) (by omega)] using hdraw

end Sys2Proof.Machine
end

