-- ==== Sys2Proof/Tests/Slice0.lean ====
section
/-! SUPPORT. The model's own tests: expected values from spec/95_test_vectors.md, spec/30_encoding.md and the corner cases
of the command rules; and a witness for every statement that has hypotheses. -/

namespace Sys2Proof.Tests

open Sys2Proof.Machine

/-! ## Well-formedness: one ill-formed term for each check (R66, R69) -/

theorem test_wellFormed_command : (ScriptLine.command .pdepW 0x5 (some 0xF0)).wellFormed = true := by decide
theorem test_wellFormed_raw : (ScriptLine.illegal 0x10 0x5 0xF0).wellFormed = true := by decide
theorem test_illFormed_wide_a : (ScriptLine.command .ctzD (2 ^ 64) none).wellFormed = false := by decide
theorem test_illFormed_wide_a_of_two : (ScriptLine.command .mulwD (2 ^ 64) (some 1)).wellFormed = false := by decide
theorem test_illFormed_wide_b : (ScriptLine.command .mulwD 1 (some (2 ^ 64))).wellFormed = false := by decide
theorem test_illFormed_missing_b : (ScriptLine.command .pextD 1 none).wellFormed = false := by decide
theorem test_illFormed_surplus_b : (ScriptLine.command .digitsW 1 (some 0)).wellFormed = false := by decide
theorem test_illFormed_raw_legal_byte : (ScriptLine.illegal 0x0F 0 0).wellFormed = false := by decide
theorem test_illFormed_raw_wide_byte : (ScriptLine.illegal 0x100 0 0).wellFormed = false := by decide
theorem test_illFormed_raw_wide_a : (ScriptLine.illegal 0xFF (2 ^ 64) 0).wellFormed = false := by decide
theorem test_illFormed_raw_wide_b : (ScriptLine.illegal 0xFF 0 (2 ^ 64)).wellFormed = false := by decide

/-! ## Decoding: RSV (4 bits), W, FUNC (3 bits) written out from R58 and R62 -/

theorem test_decode_digitsW : decodeCmd (0b0000#4 ++ 0b0#1 ++ 0b001#3) = .ok .digitsW := by rfl
theorem test_decode_digitsD : decodeCmd (0b0000#4 ++ 0b1#1 ++ 0b001#3) = .ok .digitsD := by rfl
theorem test_decode_ctzW : decodeCmd (0b0000#4 ++ 0b0#1 ++ 0b010#3) = .ok .ctzW := by rfl
theorem test_decode_ctzD : decodeCmd (0b0000#4 ++ 0b1#1 ++ 0b010#3) = .ok .ctzD := by rfl
theorem test_decode_clzW : decodeCmd (0b0000#4 ++ 0b0#1 ++ 0b011#3) = .ok .clzW := by rfl
theorem test_decode_clzD : decodeCmd (0b0000#4 ++ 0b1#1 ++ 0b011#3) = .ok .clzD := by rfl
theorem test_decode_popcW : decodeCmd (0b0000#4 ++ 0b0#1 ++ 0b100#3) = .ok .popcW := by rfl
theorem test_decode_popcD : decodeCmd (0b0000#4 ++ 0b1#1 ++ 0b100#3) = .ok .popcD := by rfl
theorem test_decode_mulwW : decodeCmd (0b0000#4 ++ 0b0#1 ++ 0b101#3) = .ok .mulwW := by rfl
theorem test_decode_mulwD : decodeCmd (0b0000#4 ++ 0b1#1 ++ 0b101#3) = .ok .mulwD := by rfl
theorem test_decode_pdepW : decodeCmd (0b0000#4 ++ 0b0#1 ++ 0b110#3) = .ok .pdepW := by rfl
theorem test_decode_pdepD : decodeCmd (0b0000#4 ++ 0b1#1 ++ 0b110#3) = .ok .pdepD := by rfl
theorem test_decode_pextW : decodeCmd (0b0000#4 ++ 0b0#1 ++ 0b111#3) = .ok .pextW := by rfl
theorem test_decode_pextD : decodeCmd (0b0000#4 ++ 0b1#1 ++ 0b111#3) = .ok .pextD := by rfl
/-- 95 section 2.6: FUNC = 0 at either width, and RSV on the PDEP.W and MULW.D patterns. -/
theorem test_decode_zero : decodeCmd 0x00#8 = .error .noFunction := by rfl
theorem test_decode_zero_wide : decodeCmd 0x08#8 = .error .noFunction := by rfl
theorem test_decode_reserved_pdepW : decodeCmd 0x16#8 = .error .reservedBits := by rfl
theorem test_decode_reserved_mulwD : decodeCmd 0x1D#8 = .error .reservedBits := by rfl
theorem test_tableWord : decodeTableWord 8 0x0E = some .pdepD := by decide
theorem test_tableWord_illegal : decodeTableWord 8 0x10 = none := by decide
theorem test_mnemonic : mnemonic .mulwW = "MULW.W" := by decide
/-- 30_encoding.md R69: "PDEP.W 0x5, 0xF0", and `b` sent as 0 where it is not written. -/
theorem test_encodeLine : encodeLine (.command .pdepW 0x5 (some 0xF0)) = ⟨0x06#8, 0x5#64, 0xF0#64⟩ := by decide
theorem test_encodeLine_unary : encodeLine (.command .ctzD 0x40 none) = ⟨0x0A#8, 0x40#64, 0#64⟩ := by decide

/-! ## The commands: one step that delivers, from a queue of one done entry -/

/-- A block with room for `n + 1` commands. -/
def buildOf (n : Nat) : Build := ⟨n, .combinational, .unrolled⟩

/-- `cmd a, b` done as the oldest entry, the host about to take its response. -/
def offered (cmd : Cmd) (a b : Word) : State :=
  { State.reset with build := buildOf 0, queue := [⟨cmd, a, b, true⟩], accepted := [⟨cmd, a, b⟩], script := [takingCycle none] }

/-- The responses the host holds after a step, since the last reset. -/
def received : Result → Option (List Response)
  | .next t => some t.delivered
  | .fault _ => none
  | .refused _ => none

/-- 95 section 2.1. -/
theorem test_digitsW_billion : received (step (offered 0x01 1000000000 0)) = some [⟨10, 0, false⟩] := by decide
theorem test_digitsW_upper_half : received (step (offered 0x01 0xFFFFFFFF00000000 0)) = some [⟨1, 0, false⟩] := by decide
theorem test_digitsD_2_63 : received (step (offered 0x09 9223372036854775808 0)) = some [⟨19, 0, false⟩] := by decide
theorem test_digitsD_10_19 : received (step (offered 0x09 10000000000000000000 0)) = some [⟨20, 0, false⟩] := by decide
/-- 95 section 2.2. -/
theorem test_ctzW_0x28 : received (step (offered 0x02 0x28 0)) = some [⟨3, 0, false⟩] := by decide
theorem test_ctzW_upper_half : received (step (offered 0x02 0x100000000 0)) = some [⟨32, 0, false⟩] := by decide
theorem test_ctzD_40 : received (step (offered 0x0A 0x10000000000 0)) = some [⟨40, 0, false⟩] := by decide
theorem test_ctzD_zero : received (step (offered 0x0A 0 0)) = some [⟨64, 0, false⟩] := by decide
theorem test_clzW_15 : received (step (offered 0x03 0x10000 0)) = some [⟨15, 0, false⟩] := by decide
theorem test_clzW_upper_half : received (step (offered 0x03 0xFFFFFFFF00000001 0)) = some [⟨31, 0, false⟩] := by decide
theorem test_clzD_31 : received (step (offered 0x0B 0x100000000 0)) = some [⟨31, 0, false⟩] := by decide
theorem test_clzD_zero : received (step (offered 0x0B 0 0)) = some [⟨64, 0, false⟩] := by decide
/-- 95 section 2.3. -/
theorem test_popcW_13 : received (step (offered 0x04 0x12345678 0)) = some [⟨13, 0, false⟩] := by decide
theorem test_popcW_upper_half : received (step (offered 0x04 0xFFFFFFFF00000000 0)) = some [⟨0, 0, false⟩] := by decide
theorem test_popcD_32 : received (step (offered 0x0C 0x0123456789ABCDEF 0)) = some [⟨32, 0, false⟩] := by decide
theorem test_popcD_all : received (step (offered 0x0C 0xFFFFFFFFFFFFFFFF 0)) = some [⟨64, 0, false⟩] := by decide
/-- 95 section 2.4. -/
theorem test_mulwW : received (step (offered 0x05 0x12345678 0x9ABCDEF0)) = some [⟨0x242D2080, 0x0B00EA4E, false⟩] := by
  decide
theorem test_mulwW_upper_half :
    received (step (offered 0x05 0xFFFFFFFF00000002 0xAAAAAAAA00000003)) = some [⟨6, 0, false⟩] := by decide
theorem test_mulwD_carry_two :
    received (step (offered 0x0D 0x1FFFFFFFF 0x1FFFFFFFF)) = some [⟨0xFFFFFFFC00000001, 3, false⟩] := by decide
theorem test_mulwD_max : received (step (offered 0x0D 0xFFFFFFFFFFFFFFFF 0xFFFFFFFFFFFFFFFF)) =
    some [⟨1, 0xFFFFFFFFFFFFFFFE, false⟩] := by decide
/-- 95 section 2.5. -/
theorem test_pdepW_k16 : received (step (offered 0x06 0x2D 0x0F0F0F0F)) = some [⟨0x20D, 0, false⟩] := by decide
theorem test_pdepW_upper_half :
    received (step (offered 0x06 0xFFFFFFFF00000005 0xFFFFFFFF000000F0)) = some [⟨0x50, 0, false⟩] := by decide
theorem test_pdepD_k3 :
    received (step (offered 0x0E 0x5 0x8000000000000003)) = some [⟨0x8000000000000001, 0, false⟩] := by decide
theorem test_pdepD_k32 :
    received (step (offered 0x0E 0xFFFF 0xAAAAAAAAAAAAAAAA)) = some [⟨0xAAAAAAAA, 0, false⟩] := by decide
theorem test_pextW_k3 : received (step (offered 0x07 0xFFFFFFF5 0xD)) = some [⟨3, 0, false⟩] := by decide
theorem test_pextW_k16 : received (step (offered 0x07 0x12345678 0xF0F0F0F0)) = some [⟨0x1357, 0, false⟩] := by decide
theorem test_pextD_k8 :
    received (step (offered 0x0F 0xA00000000000000A 0xF00000000000000F)) = some [⟨0xAA, 0, false⟩] := by decide
theorem test_pextD_outside :
    received (step (offered 0x0F 0x5555555555555555 0xAAAAAAAAAAAAAAAA)) = some [⟨0, 0, false⟩] := by decide
/-- 95 section 2.6. -/
theorem test_illegal_reserved : received (step (offered 0x16 0x5 0xF0)) = some [⟨0, 0, true⟩] := by decide
theorem test_illegal_zero : received (step (offered 0x00 0x1234 0x5678)) = some [⟨0, 0, true⟩] := by decide

/-! ## The placing of a command, from reset: the next step runs it -/

theorem test_placed_clzW : received (step (State.reset.withFetchWord 8 0x03)) = some [⟨32, 0, false⟩] := by decide
theorem test_placed_pextD : received (step (State.reset.withFetchWord 8 0x0F)) = some [⟨0, 0, false⟩] := by decide

/-! ## The edge: cycles of the traces of 95 section 5.2 (DEPTH = 2) -/

/-- A cycle that offers `r`, with the draws given. -/
def offering (r : Request) (take ready done : Bool) (completing : List Nat) : ClockCycle :=
  ⟨⟨false, true, r, take⟩, ⟨ready, done, completing, ⟨0, 0, false⟩⟩⟩

/-- A cycle with no request. -/
def silent (rst take : Bool) (completing : List Nat) : ClockCycle :=
  ⟨⟨rst, false, ⟨0, 0, 0⟩, take⟩, ⟨true, false, completing, ⟨0, 0, false⟩⟩⟩

/-- A state of the trace: DEPTH = 2, the queue, the request out, and the cycle to come. -/
def traceState (q : List Entry) (o : Option Request) (c : ClockCycle) : State :=
  { State.reset with build := buildOf 1, queue := q, offer := o, accepted := q.map Entry.request, script := [c] }

/-- The queue after a step. -/
def queueAfter : Result → Option (List Entry)
  | .next t => some t.queue
  | .fault _ => none
  | .refused _ => none

/-- The request the host has out after a step. -/
def offerAfter : Result → Option (Option Request)
  | .next t => some t.offer
  | .fault _ => none
  | .refused _ => none

def ctzReq : Request := ⟨0x02, 0x28, 0⟩
def illReq : Request := ⟨0x10, 0x5, 0xF0⟩
def popReq : Request := ⟨0x0C, 0xFFFFFFFFFFFFFFFF, 0⟩

/-- Cycle 2: CTZ.W completes and the illegal command is accepted like any other. -/
theorem test_trace_cycle2 :
    queueAfter (step (traceState [⟨0x02, 0x28, 0, false⟩] none (offering illReq true true true [0]))) =
      some [⟨0x02, 0x28, 0, true⟩, ⟨0x10, 0x5, 0xF0, true⟩] := by decide
/-- Cycle 3: full; the delivery makes no room for the same edge, though the draw is 1. -/
theorem test_trace_cycle3 :
    queueAfter (step (traceState [⟨0x02, 0x28, 0, true⟩, ⟨0x10, 0x5, 0xF0, true⟩] none (offering popReq true true false []))) =
      some [⟨0x10, 0x5, 0xF0, true⟩] := by decide
theorem test_trace_cycle3_held :
    offerAfter (step (traceState [⟨0x02, 0x28, 0, true⟩, ⟨0x10, 0x5, 0xF0, true⟩] none (offering popReq true true false []))) =
      some (some popReq) := by decide
/-- Cycle 4: delivery, then acceptance, at one edge. -/
theorem test_trace_cycle4 :
    queueAfter (step (traceState [⟨0x10, 0x5, 0xF0, true⟩] (some popReq) (offering popReq true true false []))) =
      some [⟨0x0C, 0xFFFFFFFFFFFFFFFF, 0, false⟩] := by decide
/-- Cycle 6: the host holds the response back. -/
theorem test_trace_cycle6 :
    received (step (traceState [⟨0x0C, 0xFFFFFFFFFFFFFFFF, 0, true⟩] none (silent false false []))) = some [] := by decide
/-- Cycle 7: reset discards the command in flight. -/
theorem test_trace_cycle7 :
    queueAfter (step (traceState [⟨0x0C, 0xFFFFFFFFFFFFFFFF, 0, true⟩] none (silent true true []))) = some [] := by decide

/-- 70 R136: a request changed or withdrawn before it is accepted. -/
def droppedState : State := traceState [] (some popReq) (silent false true [])

def isRefused : Result → Bool
  | .refused .requestNotHeld => true
  | _ => false

theorem test_request_withdrawn : isRefused (step droppedState) = true := by decide
theorem test_request_changed :
    isRefused (step (traceState [] (some popReq) (offering ctzReq true true true []))) = true := by decide
/-- 70 R130: under reset the duty does not bind. -/
theorem test_request_withdrawn_in_reset : queueAfter (step (traceState [] (some popReq) (silent true true []))) = some [] := by
  decide

/-! ## The tables' defining equations (20_memory.md R50 to R54) and the datapaths' worked values (95 section 3) -/

theorem test_pow10 : ∀ k, k < 20 → rom pow10 k = 10 ^ k := by decide
theorem test_guess64 : ∀ l, 1 ≤ l → l < 65 → rom guess64 l + 1 = decimalLength (2 ^ l) := by decide
theorem test_guess32 : ∀ l, l < 33 → rom guess32 l = rom guess64 l := by decide
theorem test_dbCtz : ∀ i, i < 32 → rom dbCtz ((BitVec.ofNat 32 (2 ^ i) * dbmCtz) >>> 27).toNat = i := by decide
theorem test_dbClz : ∀ i, i < 32 → rom dbClz ((BitVec.ofNat 32 (2 ^ (i + 1) - 1) * dbmClz) >>> 27).toNat = i := by decide
theorem test_table_sizes :
    pow10.length = 20 ∧ guess32.length = 33 ∧ guess64.length = 65 ∧ dbCtz.length = 32 ∧ dbClz.length = 32 := by decide
theorem test_swar_first : swarPairs swar64 0x0123456789ABCDEF#64 = 0x011245564556899A#64 := by decide
theorem test_swar_tree : swarTree swar64 0x0123456789ABCDEF#64 = 0x0103030503050507#64 := by decide
theorem test_mulw_middle : mulwMiddle 0x1FFFFFFFF#64 0x1FFFFFFFF#64 = 0x2FFFFFFFC := by decide
theorem test_pdepLoop : pdepLoop 0x5#64 0x8000000000000003#64 = (0x8000000000000001#64, 3) := by decide
theorem test_pextLoop : pextLoop 0xFFFFFFF5#32 0xD#32 = (0x3#32, 3) := by decide

/-! ## Witnesses: for each statement with hypotheses, a state and operands that meet all of them -/

/-- For the statements about the response of each function: DigitsDeliversDecimalLength, CtzDeliversLowestSetBit,
ClzDeliversHighestSetBit, PopcDeliversSumOfBits, MulwDeliversExactProduct, PdepScattersToMaskPositions,
PextGathersFromMaskPositions; the operands are all ones. -/
theorem witness_response_statements : ∃ (s : State) (e : Entry) (q : List Entry), s.queue = e :: q ∧ e.done = true :=
  ⟨offered 0x01 0xFFFFFFFFFFFFFFFF 0xFFFFFFFFFFFFFFFF, _, _, rfl, rfl⟩

/-- ZeroScansGiveTheWidth, both clauses; the first also with the upper half set. -/
theorem witness_ZeroScansGiveTheWidth : ∃ (s : State) (e : Entry) (q : List Entry),
    s.queue = e :: q ∧ e.done = true ∧ e.a.toNat % 2 ^ 32 = 0 ∧ e.a = 0#64 :=
  ⟨offered 0x02 0 0, _, _, rfl, rfl, by decide, rfl⟩

theorem witness_ZeroScansGiveTheWidth_upper_half : ∃ (s : State) (e : Entry) (q : List Entry),
    s.queue = e :: q ∧ e.done = true ∧ e.a.toNat % 2 ^ 32 = 0 ∧ e.a ≠ 0#64 :=
  ⟨offered 0x02 0x100000000 0, _, _, rfl, rfl, by decide, by decide⟩

/-- EveryCommandAnswersItsResult, the first clause. -/
theorem witness_EveryCommandAnswersItsResult : ∃ (i : Instr) (s : State) (e : Entry) (q : List Entry),
    s.queue = e :: q ∧ e.done = true ∧ e.cmd = encode i :=
  ⟨.pextD, offered 0x0F 1 2, _, _, rfl, rfl, rfl⟩

/-- EveryCommandAnswersItsResult, the second clause: an empty queue and an entry that is not done. -/
theorem witness_EveryCommandAnswersItsResult_none_offered :
    State.reset.oldestDone = false ∧ (traceState [⟨0x0C, 1, 0, false⟩] none (silent false true [])).oldestDone = false := by
  decide

theorem witness_CommandsChangeOnlyQueueAndResponses : ∃ (i : Instr) (s t : State), exec i s = .next t :=
  ⟨.mulwD, offered 0x0D 3 5, _, rfl⟩

/-- IgnoredOperandBitsDoNotMatter: upper halves that differ, and a `b` that differs. -/
theorem witness_IgnoredOperandBitsDoNotMatter : ∃ (i : Instr) (a b a' b' : Word),
    a ≠ a' ∧ b ≠ b' ∧ a.toNat % 2 ^ i.width.bits = a'.toNat % 2 ^ i.width.bits ∧
    (i.func.usesB = true → b.toNat % 2 ^ i.width.bits = b'.toNat % 2 ^ i.width.bits) :=
  ⟨.pdepW, 0xFFFFFFFF00000005, 0xFFFFFFFF000000F0, 0x5, 0xF0, by decide⟩

/-- ResultsFitTheirWidth: its clauses for functions other than MULW, and for the counts. -/
theorem witness_ResultsFitTheirWidth :
    Instr.pdepW.func ≠ .mulw ∧ Instr.clzD.func ∈ [Func.digits, .ctz, .clz, .popc] := by decide

/-- ScriptLinesReadBack, at the greatest operands. -/
theorem witness_ScriptLinesReadBack :
    (ScriptLine.command .mulwD (2 ^ 64 - 1) (some (2 ^ 64 - 1))).wellFormed = true := by decide

/-- RequestsWriteBack, both clauses. -/
theorem witness_RequestsWriteBack : ∃ (r : Request) (l : ScriptLine), decodeLine r = .ok l :=
  ⟨popReq, _, rfl⟩

theorem witness_RequestsWriteBack_unwritable : ∃ (r : Request) (x : DecodeError), decodeLine r = .error x :=
  ⟨⟨0x01, 5, 0xFFFFFFFFFFFFFFFF⟩, _, rfl⟩

/-- IllegalExactlyByReservedOrNoFunction, the second clause. -/
theorem witness_IllegalExactlyByReservedOrNoFunction : (resultFn illReq).err = true := by decide

theorem witness_IllegalCommandIsAnsweredInTurn : ∃ (s : State) (e : Entry) (q : List Entry),
    s.queue = e :: q ∧ e.done = true ∧ (e.cmd.toNat / 16 ≠ 0 ∨ e.cmd.toNat % 8 = 0) ∧
    s.now.host.rst = false ∧ s.now.host.respReady = true ∧ offerHeld s.now s = true :=
  ⟨offered 0x08 1 1, _, _, rfl, rfl, by decide, rfl, rfl, rfl⟩

theorem witness_StepRunsTheOldestCommand : ∃ (s : State) (e : Entry) (q : List Entry) (i : Instr),
    s.queue = e :: q ∧ e.done = true ∧ decodeCmd e.cmd = .ok i ∧
    s.now.host.rst = false ∧ s.now.host.respReady = true ∧ offerHeld s.now s = true :=
  ⟨offered 0x0A 1 1, _, _, .ctzD, rfl, rfl, rfl, rfl, rfl, rfl⟩

/-- Trace cycle 4: the host takes the response on offer and offers a request, and both transfer. -/
def transferState : State := traceState [⟨0x10, 0x5, 0xF0, true⟩] (some popReq) (offering popReq true true false [])

/-- Trace cycle 3: as before, with the queue full. -/
def fullState : State :=
  traceState [⟨0x02, 0x28, 0, true⟩, ⟨0x10, 0x5, 0xF0, true⟩] none (offering popReq true true false [])

/-- The full queue of trace cycle 3 with a host that takes nothing. -/
def heldBackState : State :=
  traceState [⟨0x02, 0x28, 0, true⟩, ⟨0x10, 0x5, 0xF0, true⟩] none (offering popReq false true false [])

/-- OutputsFollowTheQueue, each clause: reset, room, a full queue, a response on offer. -/
theorem witness_OutputsFollowTheQueue :
    (silent true true []).host.rst = true ∧ transferState.now.host.rst = false ∧
    transferState.queue.length < transferState.build.depth ∧ fullState.build.depth ≤ fullState.queue.length ∧
    transferState.oldestDone = true := by decide

/-- DeliveryTakesWhatThePortsShow and AcceptanceAppendsTheRequest, the clauses with a transfer, and the last clause of
EdgeDeliversThenCompletesThenAccepts. -/
theorem witness_transfer_on_both_channels : ∃ t : State, step transferState = .next t ∧
    transferState.now.host.rst = false ∧
    (transferState.now.host.respReady = true ∧ respValid transferState.now transferState = true) ∧
    (transferState.now.host.reqValid = true ∧ reqReady transferState.now transferState = true) ∧
    delivers transferState.now transferState = true ∧ transferState.now.draws.ready = true ∧
    transferState.queue.length < transferState.build.depth :=
  ⟨_, rfl, by decide⟩

/-- The clauses of the same statements without a transfer. -/
theorem witness_transfer_on_neither_channel : ∃ t : State, step heldBackState = .next t ∧
    heldBackState.now.host.rst = false ∧
    ¬(heldBackState.now.host.respReady = true ∧ respValid heldBackState.now heldBackState = true) ∧
    ¬(heldBackState.now.host.reqValid = true ∧ reqReady heldBackState.now heldBackState = true) :=
  ⟨_, rfl, by decide⟩

/-- EdgeDeliversThenCompletesThenAccepts: a full queue at an edge that delivers. -/
theorem witness_EdgeDeliversThenCompletesThenAccepts : ∃ t : State, step fullState = .next t ∧
    fullState.now.host.rst = false ∧ delivers fullState.now fullState = true ∧
    fullState.build.depth ≤ fullState.queue.length :=
  ⟨_, rfl, by decide⟩

/-- CompletionIsADrawAndNeverUndone: an entry that is drawn to complete. -/
theorem witness_CompletionIsADrawAndNeverUndone : ∃ s t : State, step s = .next t ∧ s.now.host.rst = false ∧
    (if delivers s.now s then s.queue.tail else s.queue)[0]? = some ⟨0x02, 0x28, 0, false⟩ ∧
    0 ∈ s.now.draws.completing :=
  ⟨traceState [⟨0x02, 0x28, 0, false⟩] none (offering illReq true true true [0]), _, rfl, by decide⟩

/-- BackPressureLosesNothing, with a full queue. -/
theorem witness_BackPressureLosesNothing : ∃ t : State, step heldBackState = .next t ∧
    heldBackState.now.host.rst = false ∧ heldBackState.now.host.respReady = false ∧
    heldBackState.build.depth ≤ heldBackState.queue.length :=
  ⟨_, rfl, by decide⟩

theorem witness_OfferedResponseIsStable : respValid heldBackState.now heldBackState = true ∧
    heldBackState.now.host.respReady = false ∧ offerHeld heldBackState.now heldBackState = true ∧
    (silent false false []).host.rst = false := by decide

/-- StepIsRefusedExactlyWhereTheOfferIsDropped: a state on the right of the equivalence, and one that steps. -/
theorem witness_StepIsRefusedExactlyWhereTheOfferIsDropped :
    (droppedState.now.host.rst = false ∧ ∃ r, droppedState.offer = some r ∧
      ¬(droppedState.now.host.reqValid = true ∧ droppedState.now.host.req = r)) ∧
    ∃ t, step fullState = .next t :=
  ⟨⟨rfl, popReq, rfl, by decide⟩, _, rfl⟩

/-- ResetEdgeDiscardsTheQueue, and the first clause of EdgeDeliversThenCompletesThenAccepts: trace cycle 7. -/
theorem witness_ResetEdgeDiscardsTheQueue :
    (traceState [⟨0x0C, 0xFFFFFFFFFFFFFFFF, 0, true⟩] none (silent true true [])).now.host.rst = true := by decide

/-- An empty queue, a request offered and taken with `done`, and then a cycle in which the host takes the response. -/
def firstCommand : State :=
  { traceState [] none (offering ctzReq true true true []) with
    script := [offering ctzReq true true true [], silent false true []] }

/-- FirstEdgeAfterResetMayAccept: a reset edge with a command in flight, then a request and `req_ready` drawn 1. -/
theorem witness_FirstEdgeAfterResetMayAccept : ∃ s u : State, s.now.host.rst = true ∧ step s = .next u ∧
    u.now.host.rst = false ∧ u.now.host.reqValid = true ∧ u.now.draws.ready = true :=
  ⟨{ heldBackState with script := [silent true true [], offering popReq true true true []] }, _, rfl, rfl, rfl, rfl, rfl⟩

/-- What EarliestDeliveryIsTheNextEdge asks of `s`, its last clause's conditions included. -/
def deliversAtNextEdge (s : State) : Prop := ∃ t : State,
  s.now.host.rst = false ∧ accepts s.now s = true ∧ step s = .next t ∧
  t.queue = [⟨s.now.host.req.cmd, s.now.host.req.a, s.now.host.req.b, s.now.draws.acceptDone⟩] ∧
  s.now.draws.acceptDone = true ∧ t.now.host.rst = false ∧ t.now.host.respReady = true

theorem witness_EarliestDeliveryIsTheNextEdge : deliversAtNextEdge firstCommand :=
  ⟨_, rfl, rfl, rfl, by decide, rfl, rfl, rfl⟩

/-- The same from a queue whose only entry is delivered at the accepting edge (DEPTH = 2). -/
theorem witness_EarliestDeliveryIsTheNextEdge_after_delivery :
    deliversAtNextEdge { firstCommand with queue := [⟨0x10, 0x5, 0xF0, true⟩] } :=
  ⟨_, rfl, rfl, rfl, by decide, rfl, rfl, rfl⟩

/-- Its first clause alone: a command stands before the accepted one after the edge. -/
theorem witness_EarliestDeliveryIsTheNextEdge_behind_another : ∃ s t : State, s.now.host.rst = false ∧
    accepts s.now s = true ∧ step s = .next t ∧ t.queue.length = 2 :=
  ⟨traceState [⟨0x02, 0x28, 0, false⟩] none (offering illReq true true true [0]), _, rfl, rfl, rfl, by decide⟩

/-- ResponseDependsOnItsCommandAlone: the same oldest command in a queue of one and in a queue of two. -/
theorem witness_ResponseDependsOnItsCommandAlone : ∃ (s s' t t' : State) (e e' : Entry) (q q' : List Entry),
    s.queue = e :: q ∧ s'.queue = e' :: q' ∧ e.request = e'.request ∧
    delivers s.now s = true ∧ delivers s'.now s' = true ∧ step s = .next t ∧ step s' = .next t' ∧ q ≠ q' :=
  ⟨offered 0x02 0x28 0, fullState, _, _, _, _, _, _, rfl, rfl, rfl, rfl, rfl, rfl, rfl, by decide⟩

/-- A queue of accepted, unanswered commands within its depth meets the invariant. -/
theorem inv_fullState : MachineInv fullState :=
  ⟨by show 2 ≤ 2; decide, ⟨[], rfl, rfl⟩⟩

theorem witness_EveryStepKeepsTheInvariant : ∃ s t : State, MachineInv s ∧ step s = .next t :=
  ⟨fullState, _, inv_fullState, rfl⟩

theorem witness_EveryStepIsASequenceOfTransactions : ∃ s t : State, step s = .next t := ⟨transferState, _, rfl⟩

theorem witness_ResponsesArePrefixOfResults : ∃ (k : Nat) (s t : State), 0 < k ∧ MachineInv s ∧ core.run k s = .next t :=
  ⟨1, fullState, _, by decide, inv_fullState, rfl⟩

/-- CompleteRunAnswersEveryCommand: a state that meets the invariant and is complete, with one response. -/
theorem witness_CompleteRunAnswersEveryCommand : ∃ s : State, MachineInv s ∧ RunComplete s ∧ s.delivered ≠ [] :=
  ⟨{ State.reset with accepted := [ctzReq], delivered := [resultFn ctzReq] },
    ⟨by show 0 ≤ _; omega, ⟨[ctzReq], rfl, rfl⟩⟩, ⟨rfl, rfl, rfl⟩, by decide⟩

/-- A run with one command: pending, then done, then answered, then quiet. -/
def runState : Nat → State
  | 0 => { State.reset with build := buildOf 0, queue := [⟨0x02, 0x28, 0, false⟩], accepted := [ctzReq] }
  | 1 => { State.reset with build := buildOf 0, queue := [⟨0x02, 0x28, 0, true⟩], accepted := [ctzReq], cycle := 1 }
  | n + 2 =>
    { State.reset with build := buildOf 0, accepted := [ctzReq], delivered := [resultFn ctzReq], cycle := n + 2 }

theorem runState_isRun : IsRun (fun _ => silent false true [0]) runState
  | 0 => rfl
  | 1 => rfl
  | _ + 2 => rfl

theorem witness_EveryAcceptedCommandIsDelivered : ∃ (env : Nat → ClockCycle) (st : Nat → State),
    IsRun env st ∧ MachineInv (st 0) ∧ (∀ n, (env n).host.rst = false) ∧
    (∀ n, respValid (env n) (st n) = true → (env n).host.respReady = true) ∧ OldestCompletionFair env st :=
  ⟨_, runState, runState_isRun, ⟨by show 1 ≤ 1; decide, ⟨[], rfl, rfl⟩⟩, fun _ => rfl, fun _ _ => rfl,
    fun n _ => ⟨n, Nat.le_refl n, List.mem_singleton.2 rfl⟩⟩

/-- A run in which the host offers CTZ.W 0x28 in cycle 0, has it accepted there, and is then quiet. -/
def offerCycle : Nat → ClockCycle
  | 0 => offering ctzReq true true true []
  | _ + 1 => silent false true [0]

def offerState : Nat → State
  | 0 => { State.reset with build := buildOf 0 }
  | n + 1 => { runState (n + 1) with cycle := n + 1 }

theorem offerState_isRun : IsRun offerCycle offerState
  | 0 => rfl
  | 1 => rfl
  | _ + 2 => rfl

theorem witness_EveryOfferedRequestIsAccepted : ∃ (env : Nat → ClockCycle) (st : Nat → State),
    IsRun env st ∧ (∀ n, (env n).host.rst = false) ∧
    (∀ n, respValid (env n) (st n) = true → (env n).host.respReady = true) ∧ OldestCompletionFair env st ∧ ReadyFair env st ∧
    (env 0).host.reqValid = true :=
  ⟨offerCycle, offerState, offerState_isRun, fun n => by cases n <;> rfl, fun n _ => by cases n <;> rfl,
    fun n _ => ⟨n + 1, Nat.le_succ n, List.mem_singleton.2 rfl⟩, fun n _ => ⟨n + 1, Nat.le_succ n, rfl⟩, rfl⟩

/-- A run of two pending entries (DEPTH = 2) with a host that takes nothing: both are drawn at the first edge. -/
def stalledState : Nat → State
  | 0 => traceState [⟨0x02, 0x28, 0, false⟩, ⟨0x10, 0x5, 0xF0, false⟩] none (silent false false [0, 1])
  | n + 1 => { traceState [⟨0x02, 0x28, 0, true⟩, ⟨0x10, 0x5, 0xF0, true⟩] none (silent false false [0, 1]) with
      cycle := n + 1 }

theorem stalledState_isRun : IsRun (fun _ => silent false false [0, 1]) stalledState
  | 0 => rfl
  | _ + 1 => rfl

/-- No entry of it stays pending forever. -/
theorem stalledState_fair : CompletionFair (fun _ => silent false false [0, 1]) stalledState := by
  intro n a h
  obtain ⟨e, he, hd⟩ := h (n + 1) (Nat.le_succ n)
  match a, he with
  | 0, he => cases he; cases hd
  | 1, he => cases he; cases hd
  | a + 2, he => cases he

/-- EveryEntryBecomesDone and AcceptedOperandsAreKeptUntilAnswered, for an entry that is not the oldest. -/
theorem witness_EveryEntryBecomesDone : ∃ (env : Nat → ClockCycle) (st : Nat → State) (e : Entry),
    IsRun env st ∧ (∀ n, (env n).host.rst = false) ∧ CompletionFair env st ∧ (st 0).entryAt 1 = some e ∧
    e.done = false :=
  ⟨_, stalledState, ⟨0x10, 0x5, 0xF0, false⟩, stalledState_isRun, fun _ => rfl, stalledState_fair, rfl, rfl⟩

/-- AcceptedOperandsAreKeptUntilAnswered, its second clause: an entry that is answered. -/
theorem witness_AcceptedOperandsAreKeptUntilAnswered : ∃ (env : Nat → ClockCycle) (st : Nat → State) (e : Entry),
    IsRun env st ∧ (∀ n, (env n).host.rst = false) ∧ (st 0).entryAt 0 = some e ∧
    (st 2).delivered[0]? = some (resultFn e.request) :=
  ⟨_, runState, ⟨0x02, 0x28, 0, false⟩, runState_isRun, fun _ => rfl, rfl, rfl⟩

/-- ReadyIsOfferedAgainAndAgain: a run with room in every cycle but the first. -/
theorem witness_ReadyIsOfferedAgainAndAgain : ∃ (env : Nat → ClockCycle) (st : Nat → State),
    IsRun env st ∧ (∀ n, (env n).host.rst = false) ∧ ReadyFair env st ∧
    ∀ m, 2 ≤ m → (st m).queue.length < (st m).build.depth :=
  ⟨_, runState, runState_isRun, fun _ => rfl, fun n _ => ⟨n, Nat.le_refl n, rfl⟩, fun m hm => by
    match m, hm with
    | m + 2, _ => exact Nat.zero_lt_one⟩

/-- EveryTransactionIsAStep: a delivery is enabled in a state with nothing offered. -/
theorem witness_EveryTransactionIsAStep : ∃ (s : State) (v : View), s.offer = none ∧ Transaction s.view v :=
  ⟨offered 0x02 0x28 0, _, rfl, .deliver _ ⟨0x02, 0x28, 0, true⟩ [] rfl rfl⟩

end Sys2Proof.Tests
end

section
/-! PROOFS. The outputs and one edge of the queue (10_state.md R23, R31 to R34). -/

namespace Sys2Proof.Machine

/-! ## The ports -/

/-- In reset no request is ready to be taken. -/
theorem reqReady_of_reset {c : ClockCycle} {s : State} (hr : c.host.rst = true) : reqReady c s = false := by
  simp [reqReady, hr]

/-- In reset no response is offered. -/
theorem respValid_of_reset {c : ClockCycle} {s : State} (hr : c.host.rst = true) : respValid c s = false := by
  simp [respValid, hr]

/-- With room in the queue and no reset, `req_ready` is the draw. -/
theorem reqReady_of_room {c : ClockCycle} {s : State} (hr : c.host.rst = false)
    (hroom : s.queue.length < s.build.depth) : reqReady c s = c.draws.ready := by
  simp [reqReady, hr, hroom]

/-- With the queue full, `req_ready` is 0. -/
theorem reqReady_of_full (c : ClockCycle) {s : State} (hfull : s.build.depth ≤ s.queue.length) :
    reqReady c s = false := by
  simp [reqReady, Nat.not_lt.2 hfull]

/-- Where no response is offered the ports show a draw. -/
theorem respPorts_of_not_valid {c : ClockCycle} {s : State} (hv : respValid c s = false) :
    respPorts c s = c.draws.idle := by
  simp [respPorts, hv]

/-- The request channel transfers exactly where both sides are ready. -/
theorem accepts_iff (c : ClockCycle) (s : State) :
    accepts c s = true ↔ c.host.reqValid = true ∧ reqReady c s = true := by
  simp [accepts]

/-- No request transfers where the core is not ready. -/
theorem accepts_of_not_ready {c : ClockCycle} {s : State} (hr : reqReady c s = false) : accepts c s = false := by
  simp [accepts, hr]

/-- No response transfers where none is offered. -/
theorem delivers_of_not_valid {c : ClockCycle} {s : State} (hv : respValid c s = false) : delivers c s = false := by
  simp [delivers, hv]

/-! ## One edge -/

/-- Completion maps each entry at its position. -/
theorem completeEntries_eq_mapIdx (ks : List Nat) (q : List Entry) :
    completeEntries ks 0 q = q.mapIdx fun k e => { e with done := e.done || decide (k ∈ ks) } := by
  refine List.ext_getElem? fun j => ?_
  simp [completeEntries_getElem?]

/-- The queue that the delivery of an edge leaves to its completion. -/
theorem delivered_queue (d : Bool) (s : State) (r : Response) :
    (if d = true then s.answer r else s).queue = if d then s.queue.tail else s.queue := by
  cases d <;> rfl

/-- The delivery of an edge accepts nothing. -/
theorem delivered_accepted (d : Bool) (s : State) (r : Response) :
    (if d = true then s.answer r else s).accepted = s.accepted := by
  cases d <;> rfl

/-- The delivery of an edge takes one entry off the queue where a response transfers. -/
theorem length_delivered_queue (d : Bool) (q : List Entry) :
    (if d then q.tail else q).length = q.length - (if d then 1 else 0) := by
  cases d <;> simp

section
variable {s t : State} (h : step s = .next t)
include h

/-- The state after a reset step. -/
theorem step_of_reset (hr : s.now.host.rst = true) : t = s.popScript.clear.tick := by
  rcases step_cases h with ⟨-, ht⟩ | ⟨hr', -⟩
  · exact ht
  · simp [hr] at hr'

/-- The state after a step without reset. -/
theorem step_of_no_reset (hr : s.now.host.rst = false) :
    t = afterDelivery s.now (accepts s.now s)
      (if delivers s.now s = true then s.popScript.answer (respPorts s.now s) else s.popScript) :=
  edge_of_no_reset hr h

/-- The queue after a step without reset: completion of what the delivery leaves, then the accepted entry. -/
theorem step_queue (hr : s.now.host.rst = false) :
    t.queue = completeEntries s.now.draws.completing 0 (if delivers s.now s then s.queue.tail else s.queue) ++
      (if accepts s.now s = true then
        [⟨s.now.host.req.cmd, s.now.host.req.a, s.now.host.req.b, s.now.draws.acceptDone⟩] else []) := by
  rw [step_of_no_reset h hr, afterDelivery_queue, delivered_queue, State.popScript_queue]

/-- The accepted requests after a step without reset. -/
theorem step_accepted (hr : s.now.host.rst = false) :
    t.accepted = s.accepted ++ (if accepts s.now s = true then [s.now.host.req] else []) := by
  rw [step_of_no_reset h hr, afterDelivery_accepted, delivered_accepted, State.popScript_accepted]

end

/-! ## The obligations -/

/-- Settles O21: the queue after the step is what completion makes of the entries that stay, which are as many, and the
accepted entry behind them. -/
theorem acceptanceAppendsTheRequest : Obligations.AcceptanceAppendsTheRequest := by
  intro s t h hr
  have hq := step_queue h hr
  have ha := step_accepted h hr
  rw [← accepts_iff]
  constructor
  · intro hacc
    rw [if_pos hacc] at hq ha
    exact ⟨⟨_, hq, by rw [completeEntries_length, length_delivered_queue]⟩, ha⟩
  · intro hacc
    rw [if_neg hacc, List.append_nil] at hq ha
    exact ⟨by rw [hq, completeEntries_length, length_delivered_queue], ha⟩

/-- Settles O22: completion acts on the entries that stay, and acceptance appends behind them. -/
theorem completionIsADrawAndNeverUndone : Obligations.CompletionIsADrawAndNeverUndone := by
  intro s t h hr k e he
  rw [step_of_no_reset h hr]
  exact afterDelivery_getElem? s.now _ _ (by rwa [delivered_queue])

/-- Settles O23: the three parts of the edge in their order, with room judged on the queue before it. -/
theorem edgeDeliversThenCompletesThenAccepts : Obligations.EdgeDeliversThenCompletesThenAccepts := by
  intro s t h
  refine ⟨fun hr => ?_, fun hr => ?_, fun hfull => ?_, fun hr hroom hv hdraw => ?_⟩
  · rw [step_of_reset h hr]
    exact ⟨delivers_of_not_valid (respValid_of_reset hr), accepts_of_not_ready (reqReady_of_reset hr), rfl, by simp⟩
  · rw [step_queue h hr, completeEntries_eq_mapIdx]
  · exact accepts_of_not_ready (reqReady_of_full s.now hfull)
  · rw [accepts_iff, reqReady_of_room hr hroom]
    exact ⟨hv, hdraw⟩

/-- Settles O19, output by output. -/
theorem outputsFollowTheQueue : Obligations.OutputsFollowTheQueue := by
  intro c s
  refine ⟨fun hr => ⟨reqReady_of_reset hr, respValid_of_reset hr⟩, fun hr => ?_⟩
  have hvalid : respValid c s = true ↔ ∃ e q, s.queue = e :: q ∧ e.done = true := by
    simp [respValid_iff, hr]
  refine ⟨hvalid, fun e q hq hd => ?_, respPorts_of_not_valid, reqReady_of_room hr, reqReady_of_full c⟩
  exact respPorts_of_valid (hvalid.2 ⟨e, q, hq, hd⟩) hq

end Sys2Proof.Machine
end

section
/-! PROOFS. The reads of the constant tables (20_memory.md R49 to R56). -/

namespace Sys2Proof.Machine

/-- A read in range gives an entry of the table, so a bound on the entries bounds it. -/
theorem rom_lt {t : List Nat} {i b : Nat} (hi : i < t.length) (hb : ∀ v ∈ t, v < b) : rom t i < b := by
  rw [rom, List.getD_eq_getElem t 0 hi]
  exact hb _ (List.getElem_mem hi)

/-- Every entry of `GUESS32` is an index of the powers below 2^32 (R51). -/
theorem guess32_lt : ∀ v ∈ guess32, v < 10 := by decide

/-- Every entry of `GUESS64` is an index of `POW10` (R52). -/
theorem guess64_lt : ∀ v ∈ guess64, v < pow10.length := by decide

/-- The bit length of a value is at most its width, so it indexes a table with an entry for each length from 0. -/
theorem bitLength_lt_length {n : Nat} {t : List Nat} (ht : t.length = n + 1) (x : BitVec n) : n - clz x < t.length := by
  rw [ht]
  exact Nat.lt_succ_of_le (Nat.sub_le n (clz x))

/-- The top five bits of a product index a table of 32 entries (R53, R54). -/
theorem topFive_lt_length {t : List Nat} (ht : t.length = 32) (p : Half) : (p >>> 27).toNat < t.length := by
  have hp := p.isLt
  rw [ht, BitVec.toNat_ushiftRight, Nat.shiftRight_eq_div_pow]
  omega

/-! ## The obligation -/

/-- Settles O50: each index is below the length of its table, and each guess is an entry of its table. -/
theorem tableReadsAreInRange : Obligations.TableReadsAreInRange := by
  refine ⟨fun x => ?_, fun x => ?_⟩
  · have hlen : 32 - clz x < guess32.length := bitLength_lt_length rfl x
    exact ⟨hlen, rom_lt hlen guess32_lt, topFive_lt_length rfl _, topFive_lt_length rfl _⟩
  · have hlen : 64 - clz x < guess64.length := bitLength_lt_length rfl x
    exact ⟨hlen, rom_lt hlen guess64_lt⟩

end Sys2Proof.Machine
end

section
/-! PROOFS. The operand bits a command reads (30_encoding.md R62, R64): the low N bits, of `b` only where it is used. -/

namespace Sys2Proof.Machine

/-! ## The response of a legal command -/

/-- A legal command is answered without error. -/
@[simp] theorem respond_err (i : Instr) (a b : Word) : (respond i a b).err = false := by
  cases i <;> rfl

/-- A one-operand command does not read `b`. -/
theorem respond_ignores_b {i : Instr} (hi : i.func.usesB = false) (a b b' : Word) :
    respond i a b = respond i a b' := by
  cases i with
  | digitsW | digitsD | ctzW | ctzD | clzW | clzD | popcW | popcD => rfl
  | mulwW | mulwD | pdepW | pdepD | pextW | pextD => cases hi

/-- The `.W` commands read the low halves of their operands alone. -/
theorem respond_of_lowHalf_eq {i : Instr} (hi : i.width = .w) {a a' b b' : Word} (ha : lowHalf a = lowHalf a')
    (hb : lowHalf b = lowHalf b') : respond i a b = respond i a' b' := by
  cases i with
  | digitsW => simp only [respond, respDigitsW, ha]
  | ctzW => simp only [respond, respCtzW, ha]
  | clzW => simp only [respond, respClzW, ha]
  | popcW => simp only [respond, respPopcW, ha]
  | mulwW => simp only [respond, respMulwW, ha, hb]
  | pdepW => simp only [respond, respPdepW, ha, hb]
  | pextW => simp only [respond, respPextW, ha, hb]
  | digitsD | ctzD | clzD | popcD | mulwD | pdepD | pextD => cases hi

/-! ## Agreement on the low N bits -/

/-- Words that agree modulo 2^32 have the same low half. -/
theorem lowHalf_eq_of_toNat_mod {x y : Word} (h : x.toNat % 2 ^ 32 = y.toNat % 2 ^ 32) : lowHalf x = lowHalf y :=
  BitVec.eq_of_toNat_eq (by simpa only [lowHalf, BitVec.toNat_setWidth] using h)

/-- Words that agree modulo 2^64 are the same. -/
theorem word_eq_of_toNat_mod {x y : Word} (h : x.toNat % 2 ^ 64 = y.toNat % 2 ^ 64) : x = y :=
  BitVec.eq_of_toNat_eq (by simpa only [BitVec.toNat_mod_cancel] using h)

/-- Operand pairs that agree on the low N bits get the same response from a command of width N. -/
theorem respond_of_toNat_mod {i : Instr} {a a' b b' : Word}
    (ha : a.toNat % 2 ^ i.width.bits = a'.toNat % 2 ^ i.width.bits)
    (hb : b.toNat % 2 ^ i.width.bits = b'.toNat % 2 ^ i.width.bits) : respond i a b = respond i a' b' := by
  cases hw : i.width with
  | w =>
    rw [hw] at ha hb
    exact respond_of_lowHalf_eq hw (lowHalf_eq_of_toNat_mod ha) (lowHalf_eq_of_toNat_mod hb)
  | d =>
    rw [hw] at ha hb
    rw [word_eq_of_toNat_mod ha, word_eq_of_toNat_mod hb]

/-! ## The obligation -/

/-- Settles O11: the low N bits determine the response, and where `b` is not used it may be taken equal first. -/
theorem ignoredOperandBitsDoNotMatter : Obligations.IgnoredOperandBitsDoNotMatter := by
  intro i a b a' b' ha hb
  rw [resultFn_encode, resultFn_encode]
  refine ⟨?_, respond_err i a b⟩
  cases hu : i.func.usesB with
  | true => exact respond_of_toNat_mod ha (hb hu)
  | false => rw [respond_ignores_b hu a b b', respond_of_toNat_mod ha rfl]

end Sys2Proof.Machine
end

section
/-! PROOFS. What DIGITS.W and DIGITS.D deliver (40_digits.md R71, R74, R75). -/

namespace Sys2Proof.Machine

/-! ## A delivery, command by command -/

/-- A command whose response is `lo` and `hi` without error answers so where the oldest entry is done. -/
theorem answers_of_respond {i : Instr} {s : State} {e : Entry} {q : List Entry} {lo hi : Word}
    (hq : s.queue = e :: q) (hd : e.done = true) (hr : respond i e.a e.b = ⟨lo, hi, false⟩) : Answers i s q lo hi := by
  rw [Answers, exec_eq_deliver, deliver_of_done _ hq hd, hr, State.answer, hq, List.tail_cons]

/-- The low half of a word is its value modulo 2^32. -/
theorem toNat_lowHalf (x : Word) : (lowHalf x).toNat = x.toNat % 2 ^ 32 := BitVec.toNat_setWidth 32 x

/-! ## The decimal length -/

/-- The decimal length is one more than the logarithm to base 10, at 0 too. -/
theorem decimalLength_eq_log (v : Nat) : DecimalLength v = Nat.log 10 v + 1 := by
  by_cases hv : v = 0
  · simp [DecimalLength, hv]
  · rw [DecimalLength, if_neg hv, Nat.length_digits 10 v (by decide) hv]

/-- Every value has at least one digit. -/
theorem one_le_decimalLength (v : Nat) : 1 ≤ DecimalLength v := by
  rw [decimalLength_eq_log]
  exact Nat.le_add_left 1 _

/-- A value below 10^k has at most k digits. -/
theorem decimalLength_le {v k : Nat} (hk : k ≠ 0) (hv : v < 10 ^ k) : DecimalLength v ≤ k := by
  rw [decimalLength_eq_log]
  exact Nat.log_lt_of_lt_pow' hk hv

/-! ## The obligation -/

/-- Settles O1: the response of each command is the decimal length of its operand, which is below 10^10 or 10^20. -/
theorem digitsDeliversDecimalLength : Obligations.DigitsDeliversDecimalLength := by
  refine ⟨rfl, rfl, fun s e q hq hd =>
    ⟨⟨_, rfl, one_le_decimalLength _, ?_, ?_⟩, ⟨_, rfl, one_le_decimalLength _, ?_, ?_⟩⟩⟩
  · have hlt : e.a.toNat % 2 ^ 32 < 2 ^ 32 := Nat.mod_lt _ (by decide)
    exact decimalLength_le (by decide) (hlt.trans (by decide))
  · rw [← toNat_lowHalf, ← digits_eq]
    exact answers_of_respond hq hd rfl
  · exact decimalLength_le (by decide) (e.a.isLt.trans (by decide))
  · rw [← digits_eq]
    exact answers_of_respond hq hd rfl

end Sys2Proof.Machine
end

section
/-! PROOFS. The table-driven digit counter (40_digits.md R72, R73; 20_memory.md R50 to R52). -/

namespace Sys2Proof.Machine

/-! ## The bit length -/

/-- What `CLZ_N` leaves of the width is the bit length: the highest set bit's position and one more, or 0. -/
theorem IsClz.add_size {n r : Nat} {x : BitVec n} (h : IsClz x r) : r + Nat.size x.toNat = n := by
  by_cases hx : x = 0#n
  · obtain rfl : r = n := by simpa only [IsClz, hx, if_true] using h
    simp [hx]
  · simp only [IsClz, hx, if_false] at h
    obtain ⟨i, hi, hhigh, rfl⟩ := h
    have hin : i < n := BitVec.lt_of_getLsbD hi
    have hlow : i < Nat.size x.toNat := Nat.lt_size.2 (Nat.ge_two_pow_of_testBit hi)
    have hup : Nat.size x.toNat ≤ i + 1 := Nat.size_le.2 (Nat.lt_pow_two_of_testBit _ fun j hj => hhigh j hj)
    omega

/-- The index into the guess table is the bit length. -/
theorem sub_clz_eq_size {n : Nat} (x : BitVec n) : n - clz x = Nat.size x.toNat := by
  have h := (isClz_clz x).add_size
  omega

/-! ## The tables -/

/-- `POW10` holds the powers of ten (R50). -/
theorem rom_pow10 : ∀ k < pow10.length, rom pow10 k = 10 ^ k := by decide

/-- What R51 and R52 ask of a guess table of width `n`: 1 at bit length 0, and at every other bit length l the integer part
of l log10 2, which indexes `POW10`. -/
def IsGuessTable (t : List Nat) (n : Nat) : Prop :=
  rom t 0 = 1 ∧ ∀ l ≤ n, l ≠ 0 → rom t l < pow10.length ∧ 10 ^ rom t l ≤ 2 ^ l ∧ 2 ^ l < 10 ^ (rom t l + 1)

/-- `GUESS32` is the guess table of width 32 (R51). -/
theorem isGuessTable_guess32 : IsGuessTable guess32 32 := ⟨rfl, by decide⟩

/-- `GUESS64` is the guess table of width 64 (R52). -/
theorem isGuessTable_guess64 : IsGuessTable guess64 64 := ⟨rfl, by decide⟩

/-! ## The correction -/

/-- A guess that is exact or one too low is made exact by one comparison with its power of ten (R73). -/
theorem corrected_guess_eq_decimalLength {v g : Nat} (hv : v ≠ 0) (hlow : 10 ^ g ≤ 10 * v) (hup : v < 10 ^ (g + 1)) :
    (if 10 ^ g ≤ v then g + 1 else g) = DecimalLength v := by
  by_cases hge : 10 ^ g ≤ v
  · rw [if_pos hge, decimalLength_eq_log, Nat.log_eq_of_pow_le_of_lt_pow hge hup]
  · rw [if_neg hge, decimalLength_eq_log]
    cases g with
    | zero => exact absurd (Nat.one_le_iff_ne_zero.2 hv) hge
    | succ k =>
      have hk : 10 ^ k ≤ v := by
        rw [Nat.pow_succ] at hlow
        omega
      rw [Nat.log_eq_of_pow_le_of_lt_pow hk (Nat.lt_of_not_le hge)]

/-- `DIGITS_REF_N` with the guess table of its width is the decimal length. -/
theorem digitsRef_eq_decimalLength {n : Nat} {t : List Nat} (ht : IsGuessTable t n) (x : BitVec n) :
    digitsRef t x = DecimalLength x.toNat := by
  obtain ⟨hzero, hpos⟩ := ht
  rw [digitsRef, sub_clz_eq_size]
  by_cases hx : x.toNat = 0
  · rw [hx, Nat.size_zero, hzero]
    rfl
  · have hsize : Nat.size x.toNat ≠ 0 := mt Nat.size_eq_zero.1 hx
    obtain ⟨hlen, hlow, hup⟩ := hpos _ (Nat.size_le.2 x.isLt) hsize
    have hlt : x.toNat < 2 ^ Nat.size x.toNat := Nat.lt_size_self _
    have hdouble : 2 ^ Nat.size x.toNat ≤ 2 * x.toNat := by
      obtain ⟨l, hl⟩ := Nat.exists_eq_succ_of_ne_zero hsize
      have hl' : 2 ^ l ≤ x.toNat := Nat.lt_size.1 (by omega)
      rw [hl, Nat.pow_succ]
      omega
    rw [rom_pow10 _ hlen]
    exact corrected_guess_eq_decimalLength hx (by omega) (hlt.trans hup)

/-- Every power that the counter of width 32 reads is below 2^32 (R73). -/
theorem rom_pow10_guess32_lt (x : Half) : rom pow10 (rom guess32 (32 - clz x)) < 2 ^ 32 := by
  have hpow : ∀ k < 10, rom pow10 k < 2 ^ 32 := by decide
  exact hpow _ (rom_lt (bitLength_lt_length rfl x) guess32_lt)

/-! ## The obligation -/

/-- Settles O43: both guess tables are what their rules ask, so the corrected guess is exact at both widths. -/
theorem digitDatapathIsExact : Obligations.DigitDatapathIsExact :=
  ⟨fun x => ⟨digitsRef_eq_decimalLength isGuessTable_guess32 x, rom_pow10_guess32_lt x⟩,
    digitsRef_eq_decimalLength isGuessTable_guess64⟩

end Sys2Proof.Machine
end

section
/-! PROOFS. The scans and the lowest-bit helpers (41_bitscan.md R76 to R80, R84 to R87). -/

namespace Sys2Proof.Machine

/-! ## The scans -/

/-- A result of `CTZ_N` is at most the width. -/
theorem IsCtz.le {n r : Nat} {x : BitVec n} (h : IsCtz x r) : r ≤ n := by
  by_cases hx : x = 0#n
  · simp only [IsCtz, hx, if_true] at h
    exact h.le
  · simp only [IsCtz, hx, if_false] at h
    obtain ⟨hbit, -⟩ := h
    exact (BitVec.lt_of_getLsbD hbit).le

/-- `CTZ_N(0)` is the width (R80). -/
theorem ctz_zero (n : Nat) : ctz 0#n = n := by
  simpa only [IsCtz, if_true] using isCtz_ctz 0#n

/-- `CLZ_N(0)` is the width (R80). -/
theorem clz_zero (n : Nat) : clz 0#n = n := by
  simpa only [IsClz, if_true] using isClz_clz 0#n

/-! ## The lowest set bit -/

/-- The count of set bits below a position is 0 exactly where there is none. -/
theorem bitsBelow_eq_zero_iff {n : Nat} (x : BitVec n) (i : Nat) :
    bitsBelow x i = 0 ↔ ¬ ∃ j < i, x.getLsbD j = true := by
  simp [bitsBelow, Finset.sum_eq_zero_iff]

/-- Negation keeps the bits up to and including the lowest set one and complements those above it. -/
theorem getLsbD_neg_eq {n : Nat} (v : BitVec n) {i : Nat} (hi : i < n) :
    (-v).getLsbD i = (v.getLsbD i ^^ decide (bitsBelow v i ≠ 0)) := by
  simp only [BitVec.getLsbD_neg, hi, decide_true, Bool.true_and, ne_eq, bitsBelow_eq_zero_iff, not_not]

/-- The complement of the value less 1 is its negation, so both formulas of R76 mask with the same value. -/
theorem not_sub_one_eq_neg {n : Nat} (v : BitVec n) : ~~~(v - 1#n) = -v := by
  rw [BitVec.not_sub_one_eq_not_add_one, BitVec.neg_eq_not_add]

/-- Isolation keeps a set bit exactly where none is set below it (R76). -/
theorem getLsbD_isolateLsb {n : Nat} (v : BitVec n) {i : Nat} (hi : i < n) :
    (isolateLsb v).getLsbD i = (v.getLsbD i && decide (bitsBelow v i = 0)) := by
  rw [isolateLsb, BitVec.getLsbD_and, getLsbD_neg_eq v hi]
  cases v.getLsbD i <;> simp

/-- Clearing keeps a set bit exactly where one is set below it (R77). -/
theorem getLsbD_clearLsb {n : Nat} (v : BitVec n) {i : Nat} (hi : i < n) :
    (clearLsb v).getLsbD i = (v.getLsbD i && decide (bitsBelow v i ≠ 0)) := by
  have hsub : v - 1#n = ~~~(-v) := by rw [← not_sub_one_eq_neg, BitVec.not_not]
  rw [clearLsb, hsub, BitVec.getLsbD_and, BitVec.getLsbD_not, getLsbD_neg_eq v hi]
  cases v.getLsbD i <;> simp [hi]

/-! ## The obligations -/

/-- Settles O42: at every width, from the bits of the negation. -/
theorem helpersIsolateAndClearTheLowestSetBit : Obligations.HelpersIsolateAndClearTheLowestSetBit := by
  intro n v
  refine ⟨?_, fun i hi => getLsbD_isolateLsb v hi, fun i hi => getLsbD_clearLsb v hi⟩
  rw [isolateLsb, not_sub_one_eq_neg]

/-- Settles O2: `CTZ_N` of the operand, truncated for CTZ.W, meets its contract and is delivered. -/
theorem ctzDeliversLowestSetBit : Obligations.CtzDeliversLowestSetBit := by
  refine ⟨rfl, rfl, fun s e q hq hd => ?_⟩
  rw [BitVec.ofNat_toNat]
  have hhalf : IsCtz (lowHalf e.a) _ := isCtz_ctz _
  have hword : IsCtz e.a _ := isCtz_ctz _
  exact ⟨⟨_, hhalf, hhalf.le, answers_of_respond hq hd rfl⟩, ⟨_, hword, hword.le, answers_of_respond hq hd rfl⟩⟩

/-- Settles O3: `CLZ_N` of the operand, truncated for CLZ.W, meets its contract, which leaves the bit length, and is
delivered. -/
theorem clzDeliversHighestSetBit : Obligations.ClzDeliversHighestSetBit := by
  refine ⟨rfl, rfl, fun s e q hq hd => ?_⟩
  rw [BitVec.ofNat_toNat, ← toNat_lowHalf]
  have hhalf : IsClz (lowHalf e.a) _ := isClz_clz _
  have hword : IsClz e.a _ := isClz_clz _
  exact ⟨⟨_, hhalf, hhalf.add_size, answers_of_respond hq hd rfl⟩,
    ⟨_, hword, hword.add_size, answers_of_respond hq hd rfl⟩⟩

/-- Settles O4: an operand that is 0 on its N bits is scanned as 0, which gives the width. -/
theorem zeroScansGiveTheWidth : Obligations.ZeroScansGiveTheWidth := by
  intro s e q hq hd
  refine ⟨fun ha => ?_, fun ha => ?_⟩
  · have hlow : lowHalf e.a = 0#32 := lowHalf_eq_of_toNat_mod (y := 0#64) ha
    exact ⟨answers_of_respond hq hd (by rw [respond, respCtzW, hlow, ctz_zero]; rfl),
      answers_of_respond hq hd (by rw [respond, respClzW, hlow, clz_zero]; rfl)⟩
  · exact ⟨answers_of_respond hq hd (by rw [respond, respCtzD, ha, ctz_zero]; rfl),
      answers_of_respond hq hd (by rw [respond, respClzD, ha, clz_zero]; rfl)⟩

end Sys2Proof.Machine
end

section
/-! PROOFS. What POPC.W and POPC.D deliver (42_popcount.md R88, R90, R91). -/

namespace Sys2Proof.Machine

/-! ## The bits that truncation keeps -/

/-- Truncation keeps the number of set bits below any position up to the new width. -/
theorem bitsBelow_setWidth {n m k : Nat} (x : BitVec n) (hk : k ≤ m) : bitsBelow (x.setWidth m) k = bitsBelow x k :=
  Finset.sum_congr rfl fun j hj => by
    have hjm : j < m := (Finset.mem_range.1 hj).trans_le hk
    rw [BitVec.getLsbD_setWidth, decide_eq_true hjm, Bool.true_and]

/-- `POPC_32` of the low half is the sum of the low 32 bits of the word. -/
theorem popc_lowHalf (x : Word) : popc (lowHalf x) = bitsBelow x 32 :=
  (popc_eq (lowHalf x)).trans (bitsBelow_setWidth x (Nat.le_refl 32))

/-! ## The obligation -/

/-- Settles O5: the population count of the operand, truncated for POPC.W, is the sum of its N bits and is delivered. -/
theorem popcDeliversSumOfBits : Obligations.PopcDeliversSumOfBits := by
  refine ⟨rfl, rfl, fun s e q hq hd => ⟨⟨bitsBelow_le e.a 32, ?_⟩, ⟨bitsBelow_le e.a 64, ?_⟩⟩⟩
  · rw [← popc_lowHalf]
    exact answers_of_respond hq hd rfl
  · rw [← popc_eq]
    exact answers_of_respond hq hd rfl

end Sys2Proof.Machine
end

section
/-! PROOFS. What MULW.W and MULW.D deliver (43_multiply.md R94, R97, R98). -/

namespace Sys2Proof.Machine

/-- A result of at most 64 bits keeps its value on a 64-bit port. -/
theorem toNat_zext {n : Nat} (hn : n ≤ 64) (v : BitVec n) : (zext v).toNat = v.toNat :=
  BitVec.toNat_setWidth_of_le hn

/-- The halves of `MULW_N` on 64-bit ports recombine to the exact product. -/
theorem zext_mulw_recombine {n : Nat} (hn : n ≤ 64) (x y : BitVec n) :
    (zext (mulwHigh x y)).toNat * 2 ^ n + (zext (mulwLow x y)).toNat = x.toNat * y.toNat := by
  rw [toNat_zext hn, toNat_zext hn, mulw_recombine]

/-- Settles O6: the halves of the product of the operands, truncated for MULW.W, are delivered; at N = 32 each half keeps
its N bits on its port. -/
theorem mulwDeliversExactProduct : Obligations.MulwDeliversExactProduct := by
  refine ⟨rfl, rfl, fun s e q hq hd => ⟨⟨_, _, ?_, ?_, ?_, answers_of_respond hq hd rfl⟩,
    ⟨_, _, zext_mulw_recombine (Nat.le_refl 64) e.a e.b, answers_of_respond hq hd rfl⟩⟩⟩
  · rw [toNat_zext (by decide)]
    exact (mulwLow (lowHalf e.a) (lowHalf e.b)).isLt
  · rw [toNat_zext (by decide)]
    exact (mulwHigh (lowHalf e.a) (lowHalf e.b)).isLt
  · rw [← toNat_lowHalf, ← toNat_lowHalf]
    exact zext_mulw_recombine (by decide) (lowHalf e.a) (lowHalf e.b)

end Sys2Proof.Machine
end

section
/-! PROOFS. The 32x32 multiplier and the long multiplication in 32-bit digits (43_multiply.md R93 to R96). -/

namespace Sys2Proof.Machine

/-! ## Words and their halves -/

/-- The high half of a word is its value divided by 2^32. -/
theorem toNat_highHalf (x : Word) : (highHalf x).toNat = x.toNat / 2 ^ 32 := by
  have hx := x.isLt
  rw [highHalf, BitVec.extractLsb'_toNat, Nat.shiftRight_eq_div_pow]
  omega

/-- A word is the two digits that its halves are. -/
theorem highHalf_lowHalf_recombine (x : Word) : (highHalf x).toNat * 2 ^ 32 + (lowHalf x).toNat = x.toNat := by
  rw [toNat_highHalf, toNat_lowHalf, Nat.div_add_mod']

/-- Two halves set side by side are the word with these digits. -/
theorem toNat_concatHalves (hi lo : Half) : (concatHalves hi lo).toNat = hi.toNat * 2 ^ 32 + lo.toNat := by
  rw [concatHalves, BitVec.toNat_append, ← Nat.shiftLeft_add_eq_or_of_lt lo.isLt, Nat.shiftLeft_eq]

/-! ## The multiplier -/

/-- `MUL32` is exact: the product of two halves fits in a word (R93). -/
theorem toNat_mul32 (x y : Half) : (mul32 x y).toNat = x.toNat * y.toNat := by
  have hlt : x.toNat * y.toNat < 2 ^ 32 * 2 ^ 32 := Nat.mul_lt_mul'' x.isLt y.isLt
  rw [mul32, BitVec.toNat_ofNat, Nat.mod_eq_of_lt (by simpa only [← Nat.pow_add] using hlt)]

/-! ## The long multiplication -/

/-- The product of two words in their halves: the four cross products in their places (R95). -/
theorem toNat_mul_eq_crossProducts (x y : Word) :
    x.toNat * y.toNat = (mul32 (highHalf x) (highHalf y)).toNat * 2 ^ 64 +
      ((mul32 (highHalf x) (lowHalf y)).toNat + (mul32 (lowHalf x) (highHalf y)).toNat) * 2 ^ 32 +
      (mul32 (lowHalf x) (lowHalf y)).toNat := by
  simp only [toNat_mul32]
  rw [← highHalf_lowHalf_recombine x, ← highHalf_lowHalf_recombine y]
  ring

/-- The middle sum is of three halves (R96). -/
theorem mulwMiddle_le (x y : Word) : mulwMiddle x y ≤ 3 * (2 ^ 32 - 1) := by
  have h00 := (highHalf (mul32 (lowHalf x) (lowHalf y))).isLt
  have h10 := (lowHalf (mul32 (highHalf x) (lowHalf y))).isLt
  have h01 := (lowHalf (mul32 (lowHalf x) (highHalf y))).isLt
  rw [mulwMiddle]
  omega

/-- The low half of `MULW_REF_64`: the low digit of the middle sum above that of the low product. -/
theorem toNat_mulwRef64_low (x y : Word) :
    (mulwRef64 x y).1.toNat = mulwMiddle x y % 2 ^ 32 * 2 ^ 32 + (lowHalf (mul32 (lowHalf x) (lowHalf y))).toNat := by
  rw [mulwRef64, toNat_concatHalves, BitVec.toNat_ofNat]

/-- The upper sum, before it is put on 64 bits, and the low half recombine to the exact product: what the middle sum leaves
of its low digit is the carry that the upper sum takes up. -/
theorem mulwUpper_recombine (x y : Word) :
    mulwUpper x y * 2 ^ 64 + (mulwRef64 x y).1.toNat = x.toNat * y.toNat := by
  have hcarry := Nat.div_add_mod' (mulwMiddle x y) (2 ^ 32)
  have h00 := highHalf_lowHalf_recombine (mul32 (lowHalf x) (lowHalf y))
  have h10 := highHalf_lowHalf_recombine (mul32 (highHalf x) (lowHalf y))
  have h01 := highHalf_lowHalf_recombine (mul32 (lowHalf x) (highHalf y))
  rw [toNat_mulwRef64_low, toNat_mul_eq_crossProducts, ← h00, ← h10, ← h01, mulwUpper]
  rw [mulwMiddle] at hcarry ⊢
  linear_combination 2 ^ 32 * hcarry

/-- The upper sum is the high half of the product (R96). -/
theorem mulwUpper_eq (x y : Word) : mulwUpper x y = x.toNat * y.toNat / 2 ^ 64 := by
  have hlow := (mulwRef64 x y).1.isLt
  have hsum := mulwUpper_recombine x y
  omega

/-- The high half of the greatest product is 2^64 - 2, so the upper sum fits in a word (R96). -/
theorem mulwUpper_le (x y : Word) : mulwUpper x y ≤ 2 ^ 64 - 2 := by
  have hmax : x.toNat * y.toNat ≤ (2 ^ 64 - 1) * (2 ^ 64 - 1) :=
    Nat.mul_le_mul (Nat.le_pred_of_lt x.isLt) (Nat.le_pred_of_lt y.isLt)
  rw [mulwUpper_eq]
  omega

/-- The high half of `MULW_REF_64` is the upper sum, with no carry out. -/
theorem toNat_mulwRef64_high (x y : Word) : (mulwRef64 x y).2.toNat = mulwUpper x y := by
  have hle := mulwUpper_le x y
  rw [mulwRef64, BitVec.toNat_ofNat, Nat.mod_eq_of_lt (by omega)]

/-! ## The obligation -/

/-- Settles O46: `MUL32` is exact, the cross products in their places are the product, and the sums lose no carry. -/
theorem longMultiplicationIsExact : Obligations.LongMultiplicationIsExact := by
  refine ⟨fun x y => ⟨toNat_mul32 x y, ?_⟩, fun x y => ⟨?_, mulwMiddle_le x y, ?_, mulwUpper_eq x y, mulwUpper_le x y⟩⟩
  · rw [mulwRef32, highHalf_lowHalf_recombine, toNat_mul32]
  · rw [toNat_mulwRef64_high, mulwUpper_recombine]
  · have hmid := mulwMiddle_le x y
    omega

end Sys2Proof.Machine
end

section
/-! PROOFS. What PDEP.W, PDEP.D, PEXT.W and PEXT.D deliver (44_pdep_pext.md R99, R100, R108 to R111). -/

namespace Sys2Proof.Machine

/-- A result of 64 bits is put on its port as it is. -/
@[simp] theorem zext_word (x : Word) : zext x = x := BitVec.setWidth_eq x

/-- Settles O7: `PDEP_N` of the operands, truncated for PDEP.W, meets its contract and is delivered. -/
theorem pdepScattersToMaskPositions : Obligations.PdepScattersToMaskPositions := by
  refine ⟨rfl, rfl, fun s e q hq hd => ?_⟩
  simp only [BitVec.ofNat_toNat]
  exact ⟨⟨_, isPdep_pdep _ _, answers_of_respond hq hd rfl⟩,
    ⟨_, isPdep_pdep _ _, answers_of_respond hq hd (by rw [respond, respPdepD, zext_word]; rfl)⟩⟩

/-- Settles O8: `PEXT_N` of the operands, truncated for PEXT.W, meets its contract and is delivered. -/
theorem pextGathersFromMaskPositions : Obligations.PextGathersFromMaskPositions := by
  refine ⟨rfl, rfl, fun s e q hq hd => ?_⟩
  simp only [BitVec.ofNat_toNat]
  exact ⟨⟨_, isPext_pext _ _, answers_of_respond hq hd rfl⟩,
    ⟨_, isPext_pext _ _, answers_of_respond hq hd (by rw [respond, respPextD, zext_word]; rfl)⟩⟩

end Sys2Proof.Machine
end

section
/-! PROOFS. The laws of deposit and extract (44_pdep_pext.md R112): each contract determines its result. -/

namespace Sys2Proof.Machine

/-! ## The mask bits counted -/

/-- One more bit, where it is set. -/
theorem bitsBelow_succ_of_set {n : Nat} {m : BitVec n} {p : Nat} (hp : m.getLsbD p = true) :
    bitsBelow m (p + 1) = bitsBelow m p + 1 := by
  rw [bitsBelow_succ, hp, Bool.toNat_true]

/-- A set bit has fewer set bits below it than any later position has. -/
theorem bitsBelow_lt_of_set {n : Nat} {m : BitVec n} {i k : Nat} (hi : m.getLsbD i = true) (hik : i < k) :
    bitsBelow m i < bitsBelow m k := by
  have hmono := bitsBelow_mono m (Nat.succ_le_of_lt hik)
  rw [Nat.succ_eq_add_one, bitsBelow_succ_of_set hi] at hmono
  exact hmono

/-- Every number below the count of mask bits is the number of mask bits below one of them. -/
theorem exists_set_bitsBelow_eq {n : Nat} (m : BitVec n) {j k : Nat} (hj : j < bitsBelow m k) :
    ∃ i < k, m.getLsbD i = true ∧ bitsBelow m i = j := by
  induction k with
  | zero => simp [bitsBelow] at hj
  | succ k ih =>
    by_cases hlow : j < bitsBelow m k
    · obtain ⟨i, hik, hi⟩ := ih hlow
      exact ⟨i, Nat.lt_succ_of_lt hik, hi⟩
    · cases hk : m.getLsbD k with
      | false =>
        rw [bitsBelow_succ, hk] at hj
        exact absurd hj hlow
      | true =>
        rw [bitsBelow_succ_of_set hk] at hj
        exact ⟨k, Nat.lt_succ_self k, hk, by omega⟩

/-- All bits below the width are set in the full mask. -/
theorem bitsBelow_allOnes {n k : Nat} (hk : k ≤ n) : bitsBelow (BitVec.allOnes n) k = k := by
  induction k with
  | zero => simp [bitsBelow]
  | succ k ih => rw [bitsBelow_succ_of_set (by simpa using hk), ih (Nat.le_of_succ_le hk)]

/-! ## The contracts determine their results -/

/-- What meets the contract of `PDEP_N` is its result. -/
theorem IsPdep.pdep_eq {n : Nat} {x m r : BitVec n} (h : IsPdep x m r) : pdep x m = r :=
  BitVec.eq_of_getLsbD_eq fun i hi => (isPdep_pdep x m i hi).trans (h i hi).symm

/-- What meets the contract of `PEXT_N` is its result: each bit below the count of mask bits has its mask bit. -/
theorem IsPext.pext_eq {n : Nat} {x m r : BitVec n} (h : IsPext x m r) : pext x m = r := by
  obtain ⟨hlow, hhigh⟩ := h
  obtain ⟨hlow', hhigh'⟩ := isPext_pext x m
  refine BitVec.eq_of_getLsbD_eq fun j _ => ?_
  by_cases hj : j < bitsBelow m n
  · obtain ⟨i, hi, hmi, rfl⟩ := exists_set_bitsBelow_eq m hj
    rw [hlow' i hi hmi, hlow i hi hmi]
  · rw [hhigh' j (Nat.le_of_not_lt hj), hhigh j (Nat.le_of_not_lt hj)]

/-! ## The laws -/

/-- Round trip: extracting what was deposited gives the low popcount(m) bits of the value. -/
theorem pext_pdep {n : Nat} (x m : BitVec n) :
    pext (pdep x m) m = x &&& BitVec.ofNat n (2 ^ bitsBelow m n - 1) := by
  refine IsPext.pext_eq ⟨fun i hi hmi => ?_, fun j hj => ?_⟩
  · have hlt : bitsBelow m i < bitsBelow m n := bitsBelow_lt_of_set hmi hi
    have hn : bitsBelow m i < n := (bitsBelow_le m i).trans_lt hi
    rw [isPdep_pdep x m i hi]
    simp [BitVec.getLsbD_ofNat, Nat.testBit_two_pow_sub_one, hmi, hlt, hn]
  · simp [BitVec.getLsbD_ofNat, Nat.testBit_two_pow_sub_one, Nat.not_lt.2 hj]

/-- Masking: a deposit has no bit outside the mask. -/
theorem pdep_and_not_mask {n : Nat} (x m : BitVec n) : pdep x m &&& ~~~m = 0#n := by
  refine (eq_zero_iff_no_bit _).2 fun i hi => ?_
  rw [BitVec.getLsbD_and, isPdep_pdep x m i hi, BitVec.getLsbD_not]
  cases m.getLsbD i <;> simp

/-- A deposit at the zero mask is 0. -/
@[simp] theorem pdep_zero_mask {n : Nat} (x : BitVec n) : pdep x 0#n = 0#n :=
  IsPdep.pdep_eq fun i _ => by simp

/-- An extract at the zero mask is 0. -/
@[simp] theorem pext_zero_mask {n : Nat} (x : BitVec n) : pext x 0#n = 0#n :=
  IsPext.pext_eq ⟨fun i _ hi => by simp at hi, fun j _ => BitVec.getLsbD_zero⟩

/-- A deposit at the full mask is the value. -/
theorem pdep_full_mask {n : Nat} (x : BitVec n) : pdep x (BitVec.allOnes n) = x :=
  IsPdep.pdep_eq fun i hi => by simp [bitsBelow_allOnes hi.le, hi]

/-- An extract at the full mask is the value. -/
theorem pext_full_mask {n : Nat} (x : BitVec n) : pext x (BitVec.allOnes n) = x := by
  refine IsPext.pext_eq ⟨fun i hi _ => by rw [bitsBelow_allOnes hi.le], fun j hj => ?_⟩
  rw [bitsBelow_allOnes (Nat.le_refl n)] at hj
  exact BitVec.getLsbD_of_ge x j hj

/-- Settles O49, law by law. -/
theorem depositExtractLaws : Obligations.DepositExtractLaws := fun _ x m =>
  ⟨pext_pdep x m, pdep_and_not_mask x m, ⟨pdep_zero_mask x, pext_zero_mask x⟩, ⟨pdep_full_mask x, pext_full_mask x⟩⟩

end Sys2Proof.Machine
end

section
/-! PROOFS. The fallback loops (44_pdep_pext.md R105 to R107): one iteration for each mask bit. -/

namespace Sys2Proof.Machine

/-! ## Masks with and without a bit -/

/-- The zero mask has no bit to count. -/
@[simp] theorem bitsBelow_zero_mask (n k : Nat) : bitsBelow 0#n k = 0 := by simp [bitsBelow]

/-- A mask without a bit below its width is zero. -/
theorem eq_zero_iff_bitsBelow_eq_zero {n : Nat} (m : BitVec n) : m = 0#n ↔ bitsBelow m n = 0 := by
  rw [eq_zero_iff_no_bit, bitsBelow_eq_zero_iff]
  simp

/-- Clearing the lowest set bit takes one off every count of bits that is not 0. -/
theorem bitsBelow_clearLsb {n : Nat} (m : BitVec n) {i : Nat} (hi : i ≤ n) :
    bitsBelow (clearLsb m) i = bitsBelow m i - 1 := by
  induction i with
  | zero => simp [bitsBelow]
  | succ i ih =>
    rw [bitsBelow_succ, bitsBelow_succ, ih (Nat.le_of_succ_le hi), getLsbD_clearLsb m hi]
    by_cases h0 : bitsBelow m i = 0
    · cases m.getLsbD i <;> simp [h0]
    · rw [decide_eq_true h0, Bool.and_true]
      omega

/-! ## The deposit loop -/

/-- A deposit, taken apart at the lowest mask bit: bit 0 of the value goes there, the others to the rest of the mask. -/
theorem pdep_eq_isolateLsb_or {n : Nat} (v m : BitVec n) :
    pdep v m = (if v.getLsbD 0 then isolateLsb m else 0#n) ||| pdep (v >>> 1) (clearLsb m) := by
  refine IsPdep.pdep_eq fun i hi => ?_
  rw [BitVec.getLsbD_or, isPdep_pdep _ _ i hi, bitsBelow_clearLsb m hi.le, getLsbD_clearLsb m hi,
    BitVec.getLsbD_ushiftRight, apply_ite (BitVec.getLsbD · i), getLsbD_isolateLsb m hi]
  by_cases h0 : bitsBelow m i = 0
  · rw [h0]
    cases v.getLsbD 0 <;> simp
  · have hpos : 1 + (bitsBelow m i - 1) = bitsBelow m i := by omega
    simp [h0, hpos]

/-- An iteration of the deposit loop: the lowest mask bit is cleared and bit 0 of the value goes to its position. -/
theorem pdepLoopFrom_succ {n : Nat} (fuel : Nat) (r v : BitVec n) {m : BitVec n} (hm : m ≠ 0#n) :
    pdepLoopFrom (fuel + 1) r v m = Prod.map id (· + 1)
      (pdepLoopFrom fuel (if v.getLsbD 0 then r ||| isolateLsb m else r) (v >>> 1) (clearLsb m)) :=
  if_neg hm

/-- The deposit loop with enough fuel puts the deposit into the accumulator, one iteration for each mask bit. -/
theorem pdepLoopFrom_eq {n : Nat} (fuel : Nat) (r v m : BitVec n) (hfuel : bitsBelow m n ≤ fuel) :
    pdepLoopFrom fuel r v m = (r ||| pdep v m, bitsBelow m n) := by
  induction fuel generalizing r v m with
  | zero =>
    obtain rfl : m = 0#n := (eq_zero_iff_bitsBelow_eq_zero m).2 (Nat.le_zero.1 hfuel)
    simp [pdepLoopFrom]
  | succ fuel ih =>
    by_cases hm : m = 0#n
    · simp [pdepLoopFrom, hm]
    · have hcount : bitsBelow m n ≠ 0 := mt (eq_zero_iff_bitsBelow_eq_zero m).2 hm
      have hclear := bitsBelow_clearLsb m (Nat.le_refl n)
      rw [pdepLoopFrom_succ fuel r v hm, ih _ _ _ (by omega), hclear, Prod.map_apply,
        Nat.sub_add_cancel (Nat.pos_of_ne_zero hcount), pdep_eq_isolateLsb_or v m]
      cases v.getLsbD 0 <;> simp [BitVec.or_assoc]

/-- `PDEP_LOOP_N` is the deposit, with popcount(m) iterations (R105, R107). -/
theorem pdepLoop_eq {n : Nat} (x m : BitVec n) : pdepLoop x m = (pdep x m, bitsBelow m n) := by
  rw [pdepLoop, pdepLoopFrom_eq n _ _ _ (bitsBelow_le m n), BitVec.zero_or]

/-! ## The extract loop -/

/-- The highest set bit, as the extract loop finds it: N - 1 less `CLZ_N`. -/
theorem highest_set_bit_of_ne_zero {n : Nat} {m : BitVec n} (hm : m ≠ 0#n) :
    m.getLsbD (n - 1 - clz m) = true ∧ ∀ j, n - 1 - clz m < j → m.getLsbD j = false := by
  have h := isClz_clz m
  simp only [IsClz, hm, if_false] at h
  obtain ⟨i, hi, hhigh, hclz⟩ := h
  have hin : i < n := BitVec.lt_of_getLsbD hi
  obtain rfl : n - 1 - clz m = i := by omega
  exact ⟨hi, hhigh⟩

/-- The mask without its bit `p`, as the extract loop clears it (R106). -/
def clearBit {n : Nat} (m : BitVec n) (p : Nat) : BitVec n := m &&& ~~~(BitVec.ofNat n (2 ^ p))

/-- An iteration of the extract loop: the highest mask bit is cleared and its bit of the value is moved in from below. -/
theorem pextLoopFrom_succ {n : Nat} (x : BitVec n) (fuel : Nat) (r : BitVec n) {m : BitVec n} (hm : m ≠ 0#n) :
    pextLoopFrom x (fuel + 1) r m = Prod.map id (· + 1)
      (pextLoopFrom x fuel (r <<< 1 ||| BitVec.ofNat n (x.getLsbD (n - 1 - clz m)).toNat) (clearBit m (n - 1 - clz m))) :=
  if_neg hm

/-- Clearing one bit leaves the others. -/
theorem getLsbD_clearBit {n : Nat} (m : BitVec n) (p i : Nat) :
    (clearBit m p).getLsbD i = (m.getLsbD i && decide (p ≠ i)) := by
  by_cases hi : i < n
  · rw [clearBit, BitVec.getLsbD_and, BitVec.getLsbD_not, BitVec.getLsbD_ofNat, Nat.testBit_two_pow]
    simp [hi]
  · rw [BitVec.getLsbD_of_ge _ i (Nat.le_of_not_lt hi), BitVec.getLsbD_of_ge m i (Nat.le_of_not_lt hi), Bool.false_and]

/-- Clearing one bit leaves the counts of the bits up to it. -/
theorem bitsBelow_clearBit_of_le {n : Nat} (m : BitVec n) {p i : Nat} (hi : i ≤ p) :
    bitsBelow (clearBit m p) i = bitsBelow m i :=
  Finset.sum_congr rfl fun j hj => by
    have hjp : p ≠ j := ((Finset.mem_range.1 hj).trans_le hi).ne'
    rw [getLsbD_clearBit, decide_eq_true hjp, Bool.and_true]

/-- No bit from a position on adds nothing to the count. -/
theorem bitsBelow_eq_of_no_bit {n : Nat} {m : BitVec n} {p k : Nat} (hpk : p ≤ k)
    (h : ∀ j, p ≤ j → m.getLsbD j = false) : bitsBelow m k = bitsBelow m p := by
  induction k, hpk using Nat.le_induction with
  | base => rfl
  | succ k hk ih => rw [bitsBelow_succ, h k hk, ih, Bool.toNat_false, Nat.add_zero]

section
variable {n p : Nat} {m : BitVec n} (hp : m.getLsbD p = true) (hhigh : ∀ j, p < j → m.getLsbD j = false)
include hp hhigh

/-- The mask bits, counted without the highest: those below it. -/
theorem bitsBelow_clear_highest : bitsBelow (clearBit m p) n = bitsBelow m p := by
  have hpn : p < n := BitVec.lt_of_getLsbD hp
  rw [bitsBelow_eq_of_no_bit hpn.le fun j hj => ?_, bitsBelow_clearBit_of_le m (Nat.le_refl p)]
  rw [getLsbD_clearBit]
  rcases hj.eq_or_lt with rfl | hlt
  · simp
  · rw [hhigh j hlt, Bool.false_and]

/-- All mask bits: the highest and those below it. -/
theorem bitsBelow_eq_highest_succ : bitsBelow m n = bitsBelow m p + 1 := by
  rw [bitsBelow_eq_of_no_bit (BitVec.lt_of_getLsbD hp) hhigh, bitsBelow_succ_of_set hp]

/-- An extract, taken apart at the highest mask bit: its bit of the value stands above those of the rest of the mask. -/
theorem pext_eq_highest_or (x : BitVec n) :
    pext x m = BitVec.ofNat n (x.getLsbD p).toNat <<< bitsBelow m p ||| pext x (clearBit m p) := by
  obtain ⟨hrest, habove⟩ := isPext_pext x (clearBit m p)
  rw [bitsBelow_clear_highest hp hhigh] at habove
  refine IsPext.pext_eq ⟨fun i hi hmi => ?_, fun j hj => ?_⟩
  · have hn : bitsBelow m i < n := (bitsBelow_le m i).trans_lt hi
    rw [BitVec.getLsbD_or, BitVec.getLsbD_shiftLeft]
    rcases lt_trichotomy i p with hlt | rfl | hgt
    · have hbit := hrest i hi (by simp [getLsbD_clearBit, hmi, hlt.ne'])
      rw [bitsBelow_clearBit_of_le m hlt.le] at hbit
      simp [hbit, bitsBelow_lt_of_set hmi hlt]
    · rw [habove _ (Nat.le_refl _), BitVec.getLsbD_ofNat, Nat.testBit_bool_toNat]
      simp [hn, Nat.zero_lt_of_lt hi]
    · simp [hhigh i hgt] at hmi
  · rw [bitsBelow_eq_highest_succ hp hhigh] at hj
    have hj0 : j - bitsBelow m p ≠ 0 := by omega
    rw [BitVec.getLsbD_or, BitVec.getLsbD_shiftLeft, habove j (Nat.le_of_succ_le hj), BitVec.getLsbD_ofNat,
      Nat.testBit_bool_toNat, decide_eq_false hj0]
    simp

end

/-- The extract loop with enough fuel moves the accumulator up and puts the extract below it, one iteration for each mask
bit. -/
theorem pextLoopFrom_eq {n : Nat} (x : BitVec n) (fuel : Nat) (r m : BitVec n) (hfuel : bitsBelow m n ≤ fuel) :
    pextLoopFrom x fuel r m = (r <<< bitsBelow m n ||| pext x m, bitsBelow m n) := by
  induction fuel generalizing r m with
  | zero =>
    obtain rfl : m = 0#n := (eq_zero_iff_bitsBelow_eq_zero m).2 (Nat.le_zero.1 hfuel)
    simp [pextLoopFrom]
  | succ fuel ih =>
    by_cases hm : m = 0#n
    · simp [pextLoopFrom, hm]
    · obtain ⟨hp, hhigh⟩ := highest_set_bit_of_ne_zero hm
      have hcount := bitsBelow_eq_highest_succ hp hhigh
      have hclear := bitsBelow_clear_highest hp hhigh
      rw [pextLoopFrom_succ x fuel r hm, ih _ _ (by omega), hclear, hcount, Prod.map_apply, pext_eq_highest_or hp hhigh x,
        BitVec.shiftLeft_or_distrib, ← BitVec.shiftLeft_add, Nat.add_comm 1, BitVec.or_assoc, id]

/-- `PEXT_LOOP_N` is the extract, with popcount(m) iterations (R106, R107). -/
theorem pextLoop_eq {n : Nat} (x m : BitVec n) : pextLoop x m = (pext x m, bitsBelow m n) := by
  rw [pextLoop, pextLoopFrom_eq x n _ _ (bitsBelow_le m n), BitVec.zero_shiftLeft, BitVec.zero_or]

/-! ## The obligation -/

/-- Settles O48: each loop is its contract function with the count of mask bits, which is at most the width. -/
theorem fallbackLoopsRunOncePerMaskBit : Obligations.FallbackLoopsRunOncePerMaskBit := by
  intro n x m
  rw [pdepLoop_eq, pextLoop_eq]
  exact ⟨isPdep_pdep x m, isPext_pext x m, rfl, rfl, bitsBelow_le m n⟩

end Sys2Proof.Machine
end

section
/-! PROOFS. The illegal commands (60_exceptions.md R114, R115): the fields `RSV` and `FUNC` of the byte alone. -/

namespace Sys2Proof.Machine

/-! ## The fields of a byte -/

/-- `RSV` is the upper four bits of the byte. -/
theorem rsvField_eq_zero_iff (c : Cmd) : rsvField c = 0#4 ↔ c.toNat / 16 = 0 := by
  have hc := c.isLt
  rw [← BitVec.toNat_inj, rsvField, BitVec.extractLsb'_toNat, Nat.shiftRight_eq_div_pow, BitVec.toNat_ofNat]
  omega

/-- `FUNC` is the lower three bits of the byte. -/
theorem funcField_eq_zero_iff (c : Cmd) : funcField c = 0#3 ↔ c.toNat % 8 = 0 := by
  rw [← BitVec.toNat_inj, funcField, BitVec.extractLsb'_toNat, Nat.shiftRight_zero, BitVec.toNat_ofNat]

/-- Of the eight values of `FUNC`, 0 alone selects no function (R59). -/
theorem funcOf_eq_none_iff (f : BitVec 3) : funcOf f = none ↔ f = 0#3 := by
  revert f
  decide

/-! ## The bytes the decoder refuses -/

/-- The decoder refuses a byte exactly where `RSV` is not 0 or `FUNC` is 0. -/
theorem decodeCmd_error_iff (c : Cmd) :
    (∃ x, decodeCmd c = .error x) ↔ (c.toNat / 16 ≠ 0 ∨ c.toNat % 8 = 0) := by
  rw [ne_eq, ← rsvField_eq_zero_iff, ← funcField_eq_zero_iff, ← funcOf_eq_none_iff, decodeCmd]
  by_cases hrsv : rsvField c = 0#4
  · cases hfunc : funcOf (funcField c) <;> simp [hrsv]
  · simp [hrsv]

/-! ## The response to a refused byte -/

/-- The result function at a byte the decoder refuses, whatever the operands (R115). -/
theorem resultFn_of_decode_error {r : Request} {x : DecodeError} (h : decodeCmd r.cmd = .error x) :
    resultFn r = illegalResponse := by
  rw [resultFn, h]

/-- A result has `err = 1` exactly where the decoder refuses the byte: every command is answered without error. -/
theorem resultFn_err_iff (r : Request) : (resultFn r).err = true ↔ ∃ x, decodeCmd r.cmd = .error x := by
  cases h : decodeCmd r.cmd with
  | ok i => simp [resultFn, h]
  | error x => simp [resultFn_of_decode_error h, illegalResponse, errIllegal]

/-! ## The obligation -/

/-- Settles O16: the error is the decoder's refusal, which the fields of the byte decide and which has one response. -/
theorem illegalExactlyByReservedOrNoFunction : Obligations.IllegalExactlyByReservedOrNoFunction := by
  refine fun r => ⟨(resultFn_err_iff r).trans (decodeCmd_error_iff r.cmd), fun herr => ?_⟩
  obtain ⟨x, hx⟩ := (resultFn_err_iff r).1 herr
  exact resultFn_of_decode_error hx

end Sys2Proof.Machine
end

section
/-! PROOFS. Back-pressure and the first edge after a reset (70_reset_and_hazards.md R131, R136, R137). -/

namespace Sys2Proof.Machine

/-! ## The step of a host that keeps its offer -/

/-- A host with nothing on offer has nothing to keep. -/
theorem offerHeld_of_no_offer (c : ClockCycle) {s : State} (ho : s.offer = none) : offerHeld c s = true := by
  simp [offerHeld, ho]

/-- Without reset, a host that keeps its offer is given the ordinary edge (R136). -/
theorem step_of_offerHeld {s : State} (hr : s.now.host.rst = false) (ho : offerHeld s.now s = true) :
    step s = .next (afterDelivery s.now (accepts s.now s)
      (if delivers s.now s = true then s.popScript.answer (respPorts s.now s) else s.popScript)) := by
  rw [step, edge_eq, if_neg (by simp [hr])]
  exact if_pos ho

/-- The delivered responses after a step without reset. -/
theorem step_delivered {s t : State} (h : step s = .next t) (hr : s.now.host.rst = false) :
    t.delivered = s.delivered ++ (if delivers s.now s = true then [respPorts s.now s] else []) := by
  rw [step_of_no_reset h hr, afterDelivery_delivered]
  cases delivers s.now s <;> simp

/-! ## An oldest entry that is done -/

/-- No response transfers to a host that takes none. -/
theorem delivers_of_not_taken {c : ClockCycle} (s : State) (hc : c.host.respReady = false) : delivers c s = false := by
  simp [delivers, hc]

/-- Completion leaves an oldest entry that is done as it is. -/
theorem completeEntries_cons_of_done (ks : List Nat) (k : Nat) {e : Entry} (hd : e.done = true) (q : List Entry) :
    completeEntries ks k (e :: q) = e :: completeEntries ks (k + 1) q := by
  obtain ⟨cmd, a, b, done⟩ := e
  cases hd
  simp [completeEntries]

/-- An oldest entry that is done and not delivered is the oldest entry after the edge, unchanged. -/
theorem oldest_stays_of_not_delivered {s t : State} {e : Entry} {q : List Entry} (h : step s = .next t)
    (hr : s.now.host.rst = false) (hdel : delivers s.now s = false) (hq : s.queue = e :: q) (hd : e.done = true) :
    ∃ q', t.queue = e :: q' := by
  rw [step_queue h hr, hdel, if_neg Bool.false_ne_true, hq, completeEntries_cons_of_done _ 0 hd]
  exact ⟨_, List.cons_append⟩

/-! ## The empty queue -/

/-- From an empty queue no response is offered. -/
theorem respValid_of_empty (c : ClockCycle) {s : State} (hq : s.queue = []) : respValid c s = false := by
  simp [respValid, State.oldestDone, hq]

/-- An empty queue has room, at every depth. -/
theorem length_lt_depth_of_empty {s : State} (hq : s.queue = []) : s.queue.length < s.build.depth := by
  simp [hq, Build.depth]

/-! ## The obligations -/

/-- Settles O25: the oldest entry, which alone decides the ports, stays the oldest, and done. -/
theorem offeredResponseIsStable : Obligations.OfferedResponseIsStable := by
  intro s hv hready hheld
  obtain ⟨hr, e, q, hq, hd⟩ := (respValid_iff s.now s).1 hv
  have hstep := step_of_offerHeld hr hheld
  obtain ⟨q', hq'⟩ := oldest_stays_of_not_delivered hstep hr (delivers_of_not_taken s hready) hq hd
  refine ⟨_, hstep, fun c hc => ?_⟩
  have hvalid := (respValid_iff c _).2 ⟨hc, e, q', hq', hd⟩
  exact ⟨hvalid, by rw [respPorts_of_valid hvalid hq', respPorts_of_valid hv hq]⟩

/-- Settles O30: the reset leaves an empty queue, which has room, and nothing that the host must hold, so the next edge
delivers nothing and accepts where the draw allows. -/
theorem firstEdgeAfterResetMayAccept : Obligations.FirstEdgeAfterResetMayAccept := by
  intro s u hrst h
  have hu := step_of_reset h hrst
  have hq : u.queue = [] := by simp [hu]
  have hready : u.now.host.rst = false → reqReady u.now u = u.now.draws.ready :=
    fun hr => reqReady_of_room hr (length_lt_depth_of_empty hq)
  refine ⟨hq, hready, fun hr hvalid hdraw => ?_⟩
  have hacc : accepts u.now u = true := (accepts_iff u.now u).2 ⟨hvalid, (hready hr).trans hdraw⟩
  have hdel : delivers u.now u = false := delivers_of_not_valid (respValid_of_empty u.now hq)
  have hstep := step_of_offerHeld hr (offerHeld_of_no_offer u.now (by simp [hu]))
  refine ⟨_, hstep, ?_, ?_, ?_⟩
  · rw [step_accepted hstep hr, if_pos hacc]
    simp [hu]
  · rw [step_delivered hstep hr, hdel]
    simp [hu]
  · rw [step_queue hstep hr, hdel, if_pos hacc, hq]
    rfl

end Sys2Proof.Machine
end

section
/-! PROOFS. What one edge without reset does to the queue's commands and the two records (10_state.md R31 to R34), for
the delivery at an edge and for a whole run. -/

namespace Sys2Proof.Machine

/-! ## The delivery of an edge -/

/-- A response transfers where the core offers one and the host takes it. -/
theorem delivers_iff (c : ClockCycle) (s : State) :
    delivers c s = true ↔ c.host.respReady = true ∧ respValid c s = true := by
  simp [delivers]

/-- A response that transfers is the result of the oldest entry, which is done. -/
theorem delivers_cases {c : ClockCycle} {s : State} (h : delivers c s = true) :
    ∃ e q, s.queue = e :: q ∧ e.done = true ∧ respPorts c s = resultFn e.request := by
  obtain ⟨-, hv⟩ := (delivers_iff c s).1 h
  obtain ⟨-, e, q, hq, hd⟩ := (respValid_iff c s).1 hv
  exact ⟨e, q, hq, hd, respPorts_of_valid hv hq⟩

/-- A request that transfers found room in the queue. -/
theorem room_of_accepts {c : ClockCycle} {s : State} (h : accepts c s = true) : s.queue.length < s.build.depth := by
  by_contra hfull
  rw [accepts_of_not_ready (reqReady_of_full c (Nat.le_of_not_lt hfull))] at h
  exact Bool.false_ne_true h

/-- No response transfers in reset. -/
theorem no_reset_of_delivers {c : ClockCycle} {s : State} (h : delivers c s = true) : c.host.rst = false := by
  by_contra hr
  rw [delivers_of_not_valid (respValid_of_reset (by simpa using hr))] at h
  exact Bool.false_ne_true h

/-! ## An edge under a given cycle: the step of the state whose script brings this cycle next -/

/-- The state after an edge with reset. -/
theorem edge_of_reset {c : ClockCycle} {s t : State} (hr : c.host.rst = true) (h : edge c s = .next t) :
    t = s.clear.tick :=
  step_of_reset (s := { s with script := c :: s.script }) h hr

section
variable {c : ClockCycle} {s t : State} (hr : c.host.rst = false) (h : edge c s = .next t)
include hr h

/-- The queue after an edge without reset. -/
theorem edge_queue :
    t.queue = completeEntries c.draws.completing 0 (if delivers c s then s.queue.tail else s.queue) ++
      (if accepts c s = true then [⟨c.host.req.cmd, c.host.req.a, c.host.req.b, c.draws.acceptDone⟩] else []) :=
  step_queue (s := { s with script := c :: s.script }) h hr

/-- The accepted requests after an edge without reset. -/
theorem edge_accepted : t.accepted = s.accepted ++ (if accepts c s = true then [c.host.req] else []) :=
  step_accepted (s := { s with script := c :: s.script }) h hr

/-- The delivered responses after an edge without reset. -/
theorem edge_delivered : t.delivered = s.delivered ++ (if delivers c s = true then [respPorts c s] else []) :=
  step_delivered (s := { s with script := c :: s.script }) h hr

/-- The commands in the queue after an edge without reset: those that stay, in order, and the accepted one. -/
theorem edge_requests :
    t.queue.map Entry.request = (if delivers c s then s.queue.tail else s.queue).map Entry.request ++
      (if accepts c s = true then [c.host.req] else []) := by
  rw [edge_queue hr h, List.map_append, completeEntries_map_request]
  cases accepts c s <;> rfl

/-- The number of entries after an edge without reset. -/
theorem edge_queue_length :
    t.queue.length = s.queue.length - (if delivers c s then 1 else 0) + (if accepts c s then 1 else 0) := by
  have hlen := congrArg List.length (edge_requests hr h)
  rw [List.length_append, List.length_map, List.length_map, length_delivered_queue] at hlen
  rw [hlen]
  cases accepts c s <;> rfl

end

/-- The delivery of an edge does not change the parameters. -/
theorem delivered_build (d : Bool) (s : State) (r : Response) :
    (if d = true then s.answer r else s).build = s.build := by
  cases d <;> rfl

/-- No edge changes the parameters of the block (10_state.md R27). -/
theorem edge_build {c : ClockCycle} {s t : State} (h : edge c s = .next t) : t.build = s.build := by
  rcases edge_cases h with ⟨-, rfl⟩ | ⟨-, -, rfl⟩
  · rfl
  · rw [afterDelivery_build, delivered_build]

end Sys2Proof.Machine
end

section
/-! PROOFS. The invariant of the queue and the host's record (10_state.md R22, R33, R36; 00_scope.md R15). -/

namespace Sys2Proof.Machine

/-! ## One edge -/

/-- Without reset the queue still fits: an edge accepts only where it found room. -/
theorem QueueFits.edge {c : ClockCycle} {s t : State} (fits : QueueFits s) (hr : c.host.rst = false)
    (h : edge c s = .next t) : QueueFits t := by
  rw [QueueFits, edge_build h, edge_queue_length hr h]
  rw [QueueFits] at fits
  cases hacc : accepts c s with
  | false => exact (Nat.sub_le _ _).trans fits
  | true => exact Nat.succ_le_of_lt ((Nat.sub_le _ _).trans_lt (room_of_accepts hacc))

/-- Without reset the record still agrees: what is delivered is the result of the oldest command without one, and what is
accepted is the youngest. -/
theorem RecordAgrees.edge {c : ClockCycle} {s t : State} (agrees : RecordAgrees s) (hr : c.host.rst = false)
    (h : edge c s = .next t) : RecordAgrees t := by
  obtain ⟨answered, hacc, hdel⟩ := agrees
  rw [RecordAgrees, edge_accepted hr h, edge_delivered hr h, edge_requests hr h, hacc, hdel]
  cases hd : delivers c s with
  | false => exact ⟨answered, by simp⟩
  | true =>
    obtain ⟨e, q, hq, -, hports⟩ := delivers_cases hd
    exact ⟨answered ++ [e.request], by simp [hq], by simp [hports]⟩

/-- The invariant holds where nothing is queued and the record is empty. -/
theorem MachineInv.of_empty {s : State} (hq : s.queue = []) (ha : s.accepted = []) (hd : s.delivered = []) :
    MachineInv s :=
  ⟨by simp [QueueFits, hq], [], by simp [hq, ha], by simp [hd]⟩

/-- Every edge keeps the invariant. -/
theorem MachineInv.edge {c : ClockCycle} {s t : State} (inv : MachineInv s) (h : edge c s = .next t) : MachineInv t := by
  cases hr : c.host.rst with
  | true =>
    rw [edge_of_reset hr h]
    exact .of_empty rfl rfl rfl
  | false => exact ⟨inv.fits.edge hr h, inv.agrees.edge hr h⟩

/-- The invariant does not read the script. -/
theorem MachineInv.popScript {s : State} (inv : MachineInv s) : MachineInv s.popScript := ⟨inv.fits, inv.agrees⟩

/-! ## Runs -/

/-- Every state that a run of the machine answers meets the invariant, where its first state does. -/
theorem MachineInv.run {s t : State} (inv : MachineInv s) {k : Nat} (h : core.run k s = .next t) : MachineInv t := by
  induction k generalizing s with
  | zero =>
    cases h
    exact inv
  | succ k ih =>
    simp only [Host.Core.run] at h
    split at h
    · next u hu => exact ih (inv.popScript.edge hu) h
    · cases h
    · cases h

/-- The responses delivered are those of the commands accepted first. -/
theorem RecordAgrees.delivered_prefix {s : State} (agrees : RecordAgrees s) :
    s.delivered.IsPrefix (s.accepted.map resultFn) := by
  obtain ⟨answered, hacc, hdel⟩ := agrees
  rw [hacc, hdel, List.map_append]
  exact List.prefix_append _ _

/-- The commands accepted are those answered and those in the queue. -/
theorem RecordAgrees.accepted_length {s : State} (agrees : RecordAgrees s) :
    s.accepted.length = s.delivered.length + s.queue.length := by
  obtain ⟨answered, hacc, hdel⟩ := agrees
  simp [hacc, hdel]

/-! ## The obligations -/

/-- Settles O34: at reset everything is empty. -/
theorem resetMeetsTheInvariant : Obligations.ResetMeetsTheInvariant := MachineInv.of_empty rfl rfl rfl

/-- Settles O35: a step is an edge under the cycle its script brings. -/
theorem everyStepKeepsTheInvariant : Obligations.EveryStepKeepsTheInvariant :=
  fun _ _ inv h => inv.popScript.edge h

/-- Settles O36: the invariant holds at the end of the run, and gives both. -/
theorem responsesArePrefixOfResults : Obligations.ResponsesArePrefixOfResults := by
  intro k s t inv h
  have inv' := inv.run h
  exact ⟨inv'.agrees.delivered_prefix, inv'.fits⟩

/-- Settles O37: with the queue empty there are as many responses as accepted commands, and they are the first of the
results. -/
theorem completeRunAnswersEveryCommand : Obligations.CompleteRunAnswersEveryCommand := by
  intro s inv
  have hlen : s.queue = [] → s.delivered.length = s.accepted.length := by
    intro hq
    rw [inv.agrees.accepted_length, hq, List.length_nil, Nat.add_zero]
  refine ⟨⟨fun ⟨hq, hr, _⟩ => ⟨hq, hr⟩, fun ⟨hq, hr⟩ => ⟨hq, hr, hlen hq⟩⟩, fun ⟨_, _, hl⟩ => ?_⟩
  exact inv.agrees.delivered_prefix.eq_of_length (by rw [hl, List.length_map])

end Sys2Proof.Machine
end

section
/-! PROOFS. What the 14 commands answer (10_state.md R33, 30_encoding.md R63, R65): all of them at once. -/

namespace Sys2Proof.Machine

/-! ## The result function -/

/-- The result function at a byte that decodes is the command's response (R63). -/
theorem resultFn_of_decode_ok {r : Request} {i : Instr} (h : decodeCmd r.cmd = .ok i) :
    resultFn r = respond i r.a r.b := by
  rw [resultFn, h]

/-- An answer where the queue's entries are known. -/
theorem answer_of_queue {s : State} {e : Entry} {q : List Entry} (hq : s.queue = e :: q) (r : Response) :
    s.answer r = { s with queue := q, delivered := s.delivered ++ [r] } := by
  rw [State.answer, hq, List.tail_cons]

/-- A done oldest entry whose byte decodes is answered by its result. -/
theorem exec_of_done {i : Instr} {s : State} {e : Entry} {q : List Entry} (hq : s.queue = e :: q) (hd : e.done = true)
    (hi : decodeCmd e.cmd = .ok i) : exec i s = .next (s.answer (resultFn e.request)) := by
  rw [exec_eq_deliver, deliver_of_done (respond i) hq hd, resultFn_of_decode_ok (r := e.request) hi]
  rfl

/-! ## The width of a result -/

/-- A count on its port is at most the count. -/
theorem countWord_le {k b : Nat} (h : k ≤ b) : (countWord k).toNat ≤ b :=
  (BitVec.toNat_ofNat k 64).le.trans ((Nat.mod_le k _).trans h)

/-- A result of N bits on its port is below 2^N. -/
theorem zext_lt {n : Nat} (hn : n ≤ 64) (v : BitVec n) : (zext v).toNat < 2 ^ n :=
  (toNat_zext hn v).trans_lt v.isLt

/-- `DIGITS_N` is at most k where 2^N is at most 10^k. -/
theorem digits_le {n k : Nat} (hk : k ≠ 0) (hn : 2 ^ n ≤ 10 ^ k) (x : BitVec n) : digits x ≤ k :=
  (digits_eq x).trans_le (decimalLength_le hk (x.isLt.trans_le hn))

/-- `CLZ_N` is at most the width. -/
theorem clz_le {n : Nat} (x : BitVec n) : clz x ≤ n := Nat.le.intro (isClz_clz x).add_size

/-- `POPC_N` is at most the width. -/
theorem popc_le {n : Nat} (x : BitVec n) : popc x ≤ n := (popc_eq x).trans_le (bitsBelow_le x n)

/-- The count that DIGITS, CTZ, CLZ or POPC answers is at most the width. -/
theorem respond_count_le {i : Instr} (hi : i.func ∈ [.digits, .ctz, .clz, .popc]) (a b : Word) :
    (respond i a b).lo.toNat ≤ i.width.bits := by
  cases i with
  | digitsW => exact countWord_le (digits_le (by decide) (by decide) _)
  | digitsD => exact countWord_le (digits_le (by decide) (by decide) _)
  | ctzW | ctzD => exact countWord_le (isCtz_ctz _).le
  | clzW | clzD => exact countWord_le (clz_le _)
  | popcW | popcD => exact countWord_le (popc_le _)
  | mulwW | mulwD | pdepW | pdepD | pextW | pextD => simp [Instr.func] at hi

/-- The high half is 0 but for MULW. -/
theorem respond_hi_eq_zero {i : Instr} (hi : i.func ≠ .mulw) (a b : Word) : (respond i a b).hi = 0#64 := by
  cases i with
  | mulwW | mulwD => exact absurd rfl hi
  | digitsW | digitsD | ctzW | ctzD | clzW | clzD | popcW | popcD | pdepW | pdepD | pextW | pextD => rfl

/-- Both halves of a `.W` command's response are below 2^32. -/
theorem respond_lt_of_width_w {i : Instr} (hw : i.width = .w) (a b : Word) :
    (respond i a b).lo.toNat < 2 ^ 32 ∧ (respond i a b).hi.toNat < 2 ^ 32 := by
  have hcount : i.func ∈ [.digits, .ctz, .clz, .popc] → (respond i a b).lo.toNat < 2 ^ 32 := by
    intro hi
    have hle := respond_count_le hi a b
    rw [hw, Width.bits] at hle
    exact hle.trans_lt (by decide)
  cases i with
  | digitsW | ctzW | clzW | popcW => exact ⟨hcount (by decide), Nat.two_pow_pos 32⟩
  | pdepW | pextW => exact ⟨zext_lt (by decide) _, Nat.two_pow_pos 32⟩
  | mulwW => exact ⟨zext_lt (by decide) _, zext_lt (by decide) _⟩
  | digitsD | ctzD | clzD | popcD | mulwD | pdepD | pextD => cases hw

/-- Both halves of a response are below 2^N. -/
theorem respond_lt (i : Instr) (a b : Word) :
    (respond i a b).lo.toNat < 2 ^ i.width.bits ∧ (respond i a b).hi.toNat < 2 ^ i.width.bits := by
  cases hw : i.width with
  | w => exact respond_lt_of_width_w hw a b
  | d => exact ⟨(respond i a b).lo.isLt, (respond i a b).hi.isLt⟩

/-! ## The obligations -/

/-- Settles O9: every meaning is a delivery, which the oldest entry's `done` decides. -/
theorem everyCommandAnswersItsResult : Obligations.EveryCommandAnswersItsResult := by
  refine ⟨fun i s e q hq hd hi => ?_, fun i s h => ?_⟩
  · rw [exec_of_done hq hd (hi ▸ decodeCmd_encode i), answer_of_queue hq]
  · rw [exec_eq_deliver, deliver_of_not_oldestDone _ h]

/-- Settles O10: a meaning that answers is one answer of the command's response, which has no error. -/
theorem commandsChangeOnlyQueueAndResponses : Obligations.CommandsChangeOnlyQueueAndResponses := by
  intro i s t h
  rw [exec_eq_deliver] at h
  obtain ⟨e, q, -, -, rfl⟩ := deliver_cases h
  exact ⟨rfl, ⟨_, rfl, respond_err i e.a e.b⟩, rfl, rfl, rfl, rfl, rfl, rfl⟩

/-- Settles O12, clause by clause. -/
theorem resultsFitTheirWidth : Obligations.ResultsFitTheirWidth := by
  intro i a b
  rw [resultFn_encode]
  obtain ⟨hlo, hhi⟩ := respond_lt i a b
  exact ⟨hlo, hhi, fun hi => respond_hi_eq_zero hi a b, fun hi => respond_count_le hi a b, respond_err i a b⟩

end Sys2Proof.Machine
end

section
/-! PROOFS. One step from a given queue: what it delivers, refuses and discards (10_state.md R33, R35, 60_exceptions.md
R113, R115, 70_reset_and_hazards.md R129, R136, R139, R141). -/

namespace Sys2Proof.Machine

/-! ## The step, said once more -/

/-- The step as an equation: the reset, the host without a move, and the ordinary edge. -/
theorem step_eq (s : State) :
    step s =
      if s.now.host.rst = true then .next s.popScript.clear.tick
      else if offerHeld s.now s = true then
        .next (afterDelivery s.now (accepts s.now s)
          (if delivers s.now s = true then s.popScript.answer (respPorts s.now s) else s.popScript))
      else .refused .requestNotHeld :=
  edge_eq s.now s.popScript

/-- The host keeps its offer exactly where it has none or offers the same request again. -/
theorem offerHeld_iff (c : ClockCycle) (s : State) :
    offerHeld c s = true ↔ ∀ r, s.offer = some r → c.host.reqValid = true ∧ c.host.req = r := by
  rw [offerHeld]
  cases s.offer <;> simp

/-- The request on offer after a step: the host's, where it offered one without reset that was not accepted. -/
theorem step_offer {s t : State} (h : step s = .next t) :
    t.offer = if s.now.host.rst = false ∧ s.now.host.reqValid = true ∧ accepts s.now s = false then some s.now.host.req
      else none := by
  cases hr : s.now.host.rst with
  | true => simp [step_of_reset h hr]
  | false =>
    rw [step_of_no_reset h hr, afterDelivery_offer]
    cases accepts s.now s <;> simp

section
variable {s t : State} (hr : s.now.host.rst = false) (h : step s = .next t)
include hr h

/-- A step without a response transfer delivers nothing and keeps all commands in order. -/
theorem step_of_not_delivers (hdel : delivers s.now s = false) :
    t.delivered = s.delivered ∧
      t.queue.map Entry.request = s.queue.map Entry.request ++ (if accepts s.now s then [s.now.host.req] else []) := by
  have hd := step_delivered h hr
  have hq := edge_requests hr h
  rw [delivers_popScript, hdel] at hq
  rw [hdel] at hd
  exact ⟨by simpa using hd, hq⟩

/-- A step with a response transfer delivers what the ports show and keeps the commands behind the oldest in order. -/
theorem step_of_delivers (hdel : delivers s.now s = true) :
    t.delivered = s.delivered ++ [respPorts s.now s] ∧
      t.queue.map Entry.request =
        s.queue.tail.map Entry.request ++ (if accepts s.now s then [s.now.host.req] else []) := by
  have hd := step_delivered h hr
  have hq := edge_requests hr h
  rw [delivers_popScript, hdel] at hq
  rw [hdel] at hd
  exact ⟨hd, hq⟩

end

/-- Where the oldest entry is done and the host takes its response and keeps its offer, the step answers the entry's
result and goes on with the rest of the edge. -/
theorem step_of_taken {s : State} {e : Entry} {q : List Entry} (hq : s.queue = e :: q) (hd : e.done = true)
    (hr : s.now.host.rst = false) (hready : s.now.host.respReady = true) (hheld : offerHeld s.now s = true) :
    step s = .next (afterDelivery s.now (accepts s.now s) (s.popScript.answer (resultFn e.request))) := by
  have hv : respValid s.now s = true := (respValid_iff s.now s).2 ⟨hr, e, q, hq, hd⟩
  rw [step_of_offerHeld hr hheld, if_pos ((delivers_iff s.now s).2 ⟨hready, hv⟩), respPorts_of_valid hv hq]

/-- A step at which a response transfers delivers the oldest entry's result. -/
theorem step_delivers_result {s t : State} {e : Entry} {q : List Entry} (hq : s.queue = e :: q)
    (hdel : delivers s.now s = true) (h : step s = .next t) : t.delivered = s.delivered ++ [resultFn e.request] := by
  obtain ⟨hd, -⟩ := step_of_delivers (no_reset_of_delivers hdel) h hdel
  rw [hd, respPorts_of_valid ((delivers_iff s.now s).1 hdel).2 hq]

/-! ## The style of the datapaths -/

/-- `s` built with another style of the multiplier and of the loop. -/
def State.withStyle (s : State) (m : MulImpl) (p : PdepImpl) : State :=
  { s with build := { s.build with mulImpl := m, pdepImpl := p } }

/-- The delivery of an edge does not read the style. -/
theorem delivered_withStyle (d : Bool) (s : State) (r : Response) (m : MulImpl) (p : PdepImpl) :
    (if d = true then (s.withStyle m p).answer r else s.withStyle m p) =
      (if d = true then s.answer r else s).withStyle m p := by
  cases d <;> rfl

/-- The rest of an edge does not read the style. -/
theorem afterDelivery_withStyle (c : ClockCycle) (acc : Bool) (s : State) (m : MulImpl) (p : PdepImpl) :
    afterDelivery c acc (s.withStyle m p) = (afterDelivery c acc s).withStyle m p := by
  cases acc <;> rfl

/-- The step with another style, as an equation. -/
theorem step_withStyle (s : State) (m : MulImpl) (p : PdepImpl) :
    step (s.withStyle m p) =
      if s.now.host.rst = true then .next (s.popScript.clear.tick.withStyle m p)
      else if offerHeld s.now s = true then
        .next ((afterDelivery s.now (accepts s.now s)
          (if delivers s.now s = true then s.popScript.answer (respPorts s.now s) else s.popScript)).withStyle m p)
      else .refused .requestNotHeld := by
  rw [← afterDelivery_withStyle, ← delivered_withStyle]
  exact step_eq (s.withStyle m p)

/-! ## The obligations -/

/-- Settles O17: the decoder refuses the byte, so the answered result is the error response. -/
theorem illegalCommandIsAnsweredInTurn : Obligations.IllegalCommandIsAnsweredInTurn := by
  intro s e q hq hd hill hr hready hheld
  obtain ⟨x, hx⟩ := (decodeCmd_error_iff e.cmd).2 hill
  rw [step_of_taken hq hd hr hready hheld, resultFn_of_decode_error (r := e.request) hx,
    answer_of_queue (s := s.popScript) hq]
  rfl

/-- Settles O18: the meaning of the decoded command is the answer that the step makes. -/
theorem stepRunsTheOldestCommand : Obligations.StepRunsTheOldestCommand := by
  intro s e q i hq hd hi hr hready hheld
  rw [step_of_taken hq hd hr hready hheld, exec_of_done (s := s.popScript) hq hd hi]

/-- Settles O20: whether the response channel transfers decides both clauses. -/
theorem deliveryTakesWhatThePortsShow : Obligations.DeliveryTakesWhatThePortsShow := by
  intro s t h hr
  rw [← delivers_iff, Bool.not_eq_true]
  exact ⟨step_of_delivers hr h, step_of_not_delivers hr h⟩

/-- Settles O24: nothing is delivered, and a full queue is not ready, so nothing is accepted. -/
theorem backPressureLosesNothing : Obligations.BackPressureLosesNothing := by
  intro s t h hr hready
  obtain ⟨hdel, hreq⟩ := step_of_not_delivers hr h (delivers_of_not_taken s hready)
  refine ⟨hdel, hreq, fun hfull => ?_⟩
  have hnot := reqReady_of_full s.now hfull
  have hacc := step_accepted h hr
  rw [accepts_of_not_ready hnot, if_neg Bool.false_ne_true, List.append_nil] at hreq hacc
  exact ⟨hnot, hacc, hreq⟩

/-- Settles O26: the step's equation has one refusal, where the offer is not kept. -/
theorem stepIsRefusedExactlyWhereTheOfferIsDropped : Obligations.StepIsRefusedExactlyWhereTheOfferIsDropped := by
  refine ⟨fun s => ?_, fun s m => ?_, fun s t h => step_offer h⟩
  · rw [step_eq]
    have hdropped : offerHeld s.now s = false ↔
        ∃ r, s.offer = some r ∧ ¬(s.now.host.reqValid = true ∧ s.now.host.req = r) := by
      rw [← Bool.not_eq_true, offerHeld_iff]
      push Not
      rfl
    rw [← hdropped]
    cases s.now.host.rst <;> cases offerHeld s.now s <;> simp
  · rw [step_eq]
    split
    · simp
    · split <;> simp

/-- Settles O27: the step's equation has no fault. -/
theorem stepNeverFaults : Obligations.StepNeverFaults := by
  intro s f
  rw [step_eq]
  split
  · simp
  · split <;> simp

/-- Settles O28: the reset case of the step's equation. -/
theorem resetEdgeDiscardsTheQueue : Obligations.ResetEdgeDiscardsTheQueue := by
  intro s hr
  refine ⟨reqReady_of_reset hr, respValid_of_reset hr, ?_⟩
  rw [step_eq, if_pos hr]
  rfl

/-- Settles O29: the empty queue offers no response, and in reset no request is ready to be taken. -/
theorem resetStateHoldsNoCommand : Obligations.ResetStateHoldsNoCommand :=
  ⟨rfl, rfl, rfl, rfl, rfl, fun c => ⟨respValid_of_empty c rfl, reqReady_of_reset⟩⟩

/-- Settles O31: the accepted entry stands behind the entries that stay, and the acceptance leaves the host nothing to
hold, so where the entry is alone and done the next edge answers it. -/
theorem earliestDeliveryIsTheNextEdge : Obligations.EarliestDeliveryIsTheNextEdge := by
  intro s t hr hacc h
  refine ⟨?_, ?_⟩
  · cases hdel : delivers s.now s with
    | false => exact .inl (step_of_not_delivers hr h hdel).1
    | true =>
      obtain ⟨e, q, hq, -⟩ := delivers_cases hdel
      exact .inr ⟨e, q, hq, step_delivers_result hq hdel h⟩
  · have hqueue := step_queue h hr
    rw [if_pos hacc] at hqueue
    refine ⟨_, hqueue, fun hempty hdone hr' hready => ?_⟩
    rw [hempty, List.nil_append] at hqueue
    have hoffer : t.offer = none := by simp [step_offer h, hacc]
    refine ⟨_, step_of_taken hqueue hdone hr' hready (offerHeld_of_no_offer t.now hoffer), ?_⟩
    rw [afterDelivery_delivered]
    rfl

/-- Settles O32: each of the two steps delivers the result of its oldest entry's request. -/
theorem responseDependsOnItsCommandAlone : Obligations.ResponseDependsOnItsCommandAlone := by
  intro s s' t t' e e' q q' hq hq' heq hdel hdel' h h'
  refine ⟨_, step_delivers_result hq hdel h, ?_⟩
  rw [heq]
  exact step_delivers_result hq' hdel' h'

/-- Settles O33: the step's equation with another style is the equation without it, case by case. -/
theorem styleOfTheDatapathsDoesNotMatter : Obligations.StyleOfTheDatapathsDoesNotMatter := by
  intro s m p
  refine (step_withStyle s m p).trans ?_
  rw [step_eq]
  cases s.now.host.rst <;> cases offerHeld s.now s <;> rfl

end Sys2Proof.Machine
end

section
/-! PROOFS. The decoder and the lines of the command script (30_encoding.md R62, R63, R66, R69). -/

namespace Sys2Proof.Machine

/-! ## The bytes -/

/-- The decoder's refusal, by the byte's value: 0x00, 0x08 and 0x10 to 0xFF (R66). -/
theorem decodeCmd_error_iff_toNat (c : Cmd) :
    (∃ x, decodeCmd c = .error x) ↔ (c.toNat = 0 ∨ c.toNat = 8 ∨ 16 ≤ c.toNat) := by
  rw [decodeCmd_error_iff]
  omega

/-- The bytes that the script writes as illegal are those the decoder refuses. -/
theorem illegalByte_iff (c : Cmd) : illegalByte c.toNat = true ↔ ∃ x, decodeCmd c = .error x := by
  have hc := c.isLt
  rw [decodeCmd_error_iff_toNat]
  simp [illegalByte, hc, or_assoc]

/-- A byte that decodes is the byte of its command: the table of R62 has one row for each. -/
theorem encode_eq_of_decodeCmd {c : Cmd} {i : Instr} (h : decodeCmd c = .ok i) : encode i = c := by
  have table : ∀ c : Cmd, ∀ i ∈ (decodeCmd c).toOption, encode i = c := by decide
  exact table c i (by rw [h]; rfl)

/-! ## Operand literals -/

/-- A literal that fits is read back from its port. -/
theorem toNat_ofNat_of_fits {v : Nat} (h : literalFits v = true) : (BitVec.ofNat 64 v).toNat = v := by
  rw [literalFits, decide_eq_true_eq] at h
  rw [BitVec.toNat_ofNat, Nat.mod_eq_of_lt h]

/-- What a port carries fits in a literal. -/
@[simp] theorem literalFits_toNat (x : Word) : literalFits x.toNat = true := decide_eq_true x.isLt

/-! ## Reading a request, case by case -/

section
variable {r : Request} {i : Instr} (hi : decodeCmd r.cmd = .ok i)
include hi

/-- A two-operand command is read with both operands. -/
theorem decodeLine_of_two_operands (hu : i.func.usesB = true) :
    decodeLine r = .ok (.command i r.a.toNat (some r.b.toNat)) := by
  simp [decodeLine, hi, hu]

/-- A one-operand command with `b` 0 is read with its operand. -/
theorem decodeLine_of_one_operand (hu : i.func.usesB = false) (hb : r.b = 0#64) :
    decodeLine r = .ok (.command i r.a.toNat none) := by
  simp [decodeLine, hi, hu, hb]

/-- A one-operand command with `b` not 0 is not read (log entry 19). -/
theorem decodeLine_of_unwritable (hu : i.func.usesB = false) (hb : r.b ≠ 0#64) :
    decodeLine r = .error .unwritableOperand := by
  simp [decodeLine, hi, hu, hb]

end

/-- A refused byte is read with both operands. -/
theorem decodeLine_of_illegal {r : Request} {x : DecodeError} (hx : decodeCmd r.cmd = .error x) :
    decodeLine r = .ok (.illegal r.cmd.toNat r.a.toNat r.b.toNat) := by
  simp [decodeLine, hx]

/-! ## Writing back, case by case -/

/-- Where `decodeLine` reads a request, the line it reads is well-formed and encodes to the request. -/
def WritesBack (r : Request) : Prop := ∀ l, decodeLine r = .ok l → l.wellFormed = true ∧ encodeLine l = r

/-- The one line that a request is read as decides whether it writes back. -/
theorem WritesBack.of_read {r : Request} {l : ScriptLine} (h : decodeLine r = .ok l) (hwf : l.wellFormed = true)
    (henc : encodeLine l = r) : WritesBack r := by
  intro l' h'
  obtain rfl : l = l' := Except.ok.inj (h.symm.trans h')
  exact ⟨hwf, henc⟩

/-- A request that is read is written by the line it is read as. -/
theorem writesBack (r : Request) : WritesBack r := by
  obtain ⟨c, a, b⟩ := r
  cases hc : decodeCmd c with
  | error x =>
    refine .of_read (decodeLine_of_illegal hc) ?_ ?_
    · simp [ScriptLine.wellFormed, (illegalByte_iff c).2 ⟨x, hc⟩]
    · simp [encodeLine]
  | ok i =>
    have henc := encode_eq_of_decodeCmd hc
    cases hu : i.func.usesB with
    | true =>
      refine .of_read (decodeLine_of_two_operands hc hu) ?_ ?_
      · simp [ScriptLine.wellFormed, hu]
      · simp [encodeLine, henc]
    | false =>
      by_cases hb : b = 0#64
      · refine .of_read (decodeLine_of_one_operand hc hu hb) ?_ ?_
        · simp [ScriptLine.wellFormed, hu]
        · simp [encodeLine, henc, hb]
      · intro l h
        rw [decodeLine_of_unwritable hc hu hb] at h
        cases h

/-! ## The obligations -/

/-- Settles O13: the 14 bytes one by one, and the others by their value. -/
theorem fourteenBytesDecode : Obligations.FourteenBytesDecode :=
  ⟨rfl, rfl, rfl, rfl, rfl, rfl, rfl, rfl, rfl, rfl, rfl, rfl, rfl, rfl, decodeCmd_error_iff_toNat⟩

/-- Settles O14: the byte decodes to its command or is refused, and each literal is read back from its port. -/
theorem scriptLinesReadBack : Obligations.ScriptLinesReadBack := by
  intro l hwf
  match l with
  | .command i a none =>
    simp only [ScriptLine.wellFormed, Bool.and_eq_true, Bool.not_eq_true'] at hwf
    obtain ⟨ha, hu⟩ := hwf
    rw [decodeLine_of_one_operand (r := encodeLine (.command i a none)) (decodeCmd_encode i) hu rfl, encodeLine,
      toNat_ofNat_of_fits ha]
  | .command i a (some b) =>
    simp only [ScriptLine.wellFormed, Bool.and_eq_true] at hwf
    obtain ⟨⟨ha, hb⟩, hu⟩ := hwf
    rw [decodeLine_of_two_operands (r := encodeLine (.command i a (some b))) (decodeCmd_encode i) hu, encodeLine,
      toNat_ofNat_of_fits ha, Option.getD_some, toNat_ofNat_of_fits hb]
  | .illegal c a b =>
    simp only [ScriptLine.wellFormed, Bool.and_eq_true] at hwf
    obtain ⟨⟨hc, ha⟩, hb⟩ := hwf
    have hbyte : (BitVec.ofNat 8 c).toNat = c := by
      simp only [illegalByte, Bool.and_eq_true, decide_eq_true_eq] at hc
      obtain ⟨hlt, -⟩ := hc
      rw [BitVec.toNat_ofNat, Nat.mod_eq_of_lt hlt]
    obtain ⟨x, hx⟩ := (illegalByte_iff (BitVec.ofNat 8 c)).1 (hbyte.symm ▸ hc)
    rw [decodeLine_of_illegal (r := encodeLine (.illegal c a b)) hx, encodeLine, hbyte, toNat_ofNat_of_fits ha,
      toNat_ofNat_of_fits hb]

/-- Settles O15: reading has one error, at a one-operand command with `b` not 0. -/
theorem requestsWriteBack : Obligations.RequestsWriteBack := by
  refine ⟨writesBack, fun r => ⟨fun ⟨x, hx⟩ => ?_, fun ⟨i, hi, hu, hb⟩ => ?_⟩⟩
  · cases hc : decodeCmd r.cmd with
    | error y =>
      rw [decodeLine_of_illegal hc] at hx
      cases hx
    | ok i =>
      cases hu : i.func.usesB with
      | true =>
        rw [decodeLine_of_two_operands hc hu] at hx
        cases hx
      | false =>
        refine ⟨i, (encode_eq_of_decodeCmd hc).symm, hu, fun hb => ?_⟩
        rw [decodeLine_of_one_operand hc hu hb] at hx
        cases hx
  · exact ⟨_, decodeLine_of_unwritable (by rw [hi, decodeCmd_encode]) hu hb⟩

end Sys2Proof.Machine
end

section
/-! PROOFS. The cycle view and the transaction view (00_scope.md R13, 10_state.md R36): each step is a sequence of
transitions, and each transition is a step. -/

namespace Sys2Proof.Machine

/-! ## The transitions of one edge -/

/-- A sequence of enabled transitions. -/
abbrev Transactions : View → View → Prop := Relation.ReflTransGen Transaction

/-- The delivery of an edge is a Deliver transition or none. -/
theorem transactions_of_delivery (c : ClockCycle) (s : State) :
    Transactions s.view (if delivers c s = true then s.answer (respPorts c s) else s).view := by
  cases hd : delivers c s with
  | false => exact .refl
  | true =>
    obtain ⟨e, q, hq, hdone, hports⟩ := delivers_cases hd
    rw [if_pos rfl, hports, answer_of_queue hq]
    exact .single (.deliver s.view e q hq hdone)

/-- A completion of one entry, drawn or not and done or not, is a Complete transition or none. -/
theorem transactions_of_complete_one (v : View) (p q : List Entry) (e : Entry) (draw : Prop) [Decidable draw]
    (hv : v.queue = p ++ e :: q) :
    Transactions v { v with queue := p ++ (if draw then { e with done := true } else e) :: q } := by
  by_cases hstays : draw ∧ e.done = false
  · obtain ⟨hdraw, hpending⟩ := hstays
    have hstep := Transaction.complete v p.length e (by simp [hv]) hpending
    rw [hv, List.set_append_right _ _ (Nat.le_refl _), Nat.sub_self, List.set_cons_zero] at hstep
    rw [if_pos hdraw]
    exact .single hstep
  · have hsame : (if draw then { e with done := true } else e) = e := by
      obtain ⟨cmd, a, b, done⟩ := e
      cases done <;> simp_all
    rw [hsame, ← hv]

/-- The completions of an edge, entry by entry, are a sequence of Complete transitions. -/
theorem transactions_of_completeEntries (v : View) (ks : List Nat) (p q : List Entry) (k : Nat) :
    Transactions { v with queue := p ++ q } { v with queue := p ++ completeEntries ks k q } := by
  induction q generalizing p k with
  | nil => exact .refl
  | cons e q ih =>
    have hrest := ih (p ++ [if k ∈ ks then { e with done := true } else e]) (k + 1)
    rw [List.append_assoc, List.append_assoc] at hrest
    exact (transactions_of_complete_one { v with queue := p ++ e :: q } p q e (k ∈ ks) rfl).trans hrest

/-- The acceptance of an edge is an Accept transition or none. -/
theorem transactions_of_acceptance (c : ClockCycle) (acc : Bool) (s : State)
    (hroom : acc = true → s.queue.length < s.build.depth) :
    Transactions s.view (acceptancePart c acc s).view := by
  cases acc with
  | false => exact .refl
  | true => exact .single (.accept s.view c.host.req c.draws.acceptDone (hroom rfl))

/-- The rest of an edge is the completions and then the acceptance. -/
theorem transactions_of_afterDelivery (c : ClockCycle) (acc : Bool) (s : State)
    (hroom : acc = true → s.queue.length < s.build.depth) :
    Transactions s.view (afterDelivery c acc s).view :=
  (transactions_of_completeEntries s.view c.draws.completing [] s.queue 0).trans
    (transactions_of_acceptance c acc (s.complete c.draws.completing) (by simpa using hroom))

/-- The delivery of an edge leaves the room that was found before it. -/
theorem delivered_queue_length_le (d : Bool) (s : State) (r : Response) :
    (if d = true then s.answer r else s).queue.length ≤ s.queue.length := by
  rw [delivered_queue, length_delivered_queue]
  exact Nat.sub_le _ _

/-- Every edge is a sequence of transitions. -/
theorem transactions_of_edge {c : ClockCycle} {s t : State} (h : edge c s = .next t) :
    Transactions s.view t.view := by
  rcases edge_cases h with ⟨-, rfl⟩ | ⟨-, -, rfl⟩
  · exact .single (.reset s.view)
  · refine (transactions_of_delivery c s).trans (transactions_of_afterDelivery c _ _ fun hacc => ?_)
    rw [delivered_build]
    exact (delivered_queue_length_le _ s _).trans_lt (room_of_accepts hacc)

/-! ## The cycle of each transition -/

/-- A cycle in which the host offers `r` and the core is ready, and draws `d` for the accepted entry's `done`. -/
def offeringCycle (r : Request) (d : Bool) : ClockCycle :=
  ⟨⟨false, true, r, false⟩, ⟨true, d, [], illegalResponse⟩⟩

/-- A cycle with a quiet host in which position `k` is drawn to complete. -/
def completingCycle (k : Nat) : ClockCycle := ⟨HostPorts.quiet, ⟨false, false, [k], illegalResponse⟩⟩

/-- A cycle with `rst = 1`. -/
def resetCycle : ClockCycle := ⟨{ HostPorts.quiet with rst := true }, ⟨false, false, [], illegalResponse⟩⟩

/-- With no position drawn every entry is as it was. -/
@[simp] theorem completeEntries_nil (k : Nat) (q : List Entry) : completeEntries [] k q = q := by
  induction q generalizing k with
  | nil => rfl
  | cons e q ih => simp [completeEntries, ih]

/-- With one position drawn its entry becomes done. -/
theorem completeEntries_singleton {k : Nat} {q : List Entry} {e : Entry} (h : q[k]? = some e) :
    completeEntries [k] 0 q = q.set k { e with done := true } := by
  obtain ⟨hk, he⟩ := List.getElem?_eq_some_iff.1 h
  refine List.ext_getElem? fun j => ?_
  rw [completeEntries_getElem?, List.getElem?_set]
  by_cases hj : k = j
  · subst hj
    simp [hk, he]
  · have hj' : j ≠ k := Ne.symm hj
    simp [hj, hj']

/-- The step of a state with nothing on offer, where its script is one cycle. -/
theorem step_of_no_offer {s : State} (ho : s.offer = none) {c : ClockCycle} (hr : c.host.rst = false) :
    step { s with script := [c] } = .next (afterDelivery c (accepts c s)
      (if delivers c s = true then { s with script := [] }.answer (respPorts c s) else { s with script := [] })) :=
  step_of_offerHeld (s := { s with script := [c] }) hr (offerHeld_of_no_offer c ho)

/-! ## The obligations -/

/-- Settles O40: a step is an edge under the cycle its script brings. -/
theorem everyStepIsASequenceOfTransactions : Obligations.EveryStepIsASequenceOfTransactions :=
  fun s _ h => transactions_of_edge (s := s.popScript) h

/-- Settles O41: each transition has its cycle, in which nothing else happens. -/
theorem everyTransactionIsAStep : Obligations.EveryTransactionIsAStep := by
  intro s v ho hv
  cases hv with
  | accept r d room =>
    have hdel : delivers (offeringCycle r d) s = false := delivers_of_not_taken s rfl
    have hacc : accepts (offeringCycle r d) s = true := (accepts_iff _ s).2 ⟨rfl, reqReady_of_room rfl room⟩
    refine ⟨offeringCycle r d, _, step_of_no_offer ho rfl, ?_⟩
    rw [hdel, hacc]
    simp [State.view, afterDelivery_queue, afterDelivery_accepted, offeringCycle]
  | complete k e there pending =>
    have hdel : delivers (completingCycle k) s = false := delivers_of_not_taken s rfl
    have hacc : accepts (completingCycle k) s = false := rfl
    refine ⟨completingCycle k, _, step_of_no_offer ho rfl, ?_⟩
    rw [hdel, hacc]
    have hq : s.queue[k]? = some e := there
    simp [State.view, afterDelivery_queue, afterDelivery_accepted, completingCycle, completeEntries_singleton hq]
  | deliver e q oldest done =>
    have hq : s.queue = e :: q := oldest
    have hv : respValid (takingCycle none) s = true := (respValid_iff _ s).2 ⟨rfl, e, q, hq, done⟩
    have hdel : delivers (takingCycle none) s = true := (delivers_iff _ s).2 ⟨rfl, hv⟩
    have hacc : accepts (takingCycle none) s = false := rfl
    refine ⟨takingCycle none, _, step_of_no_offer ho rfl, ?_⟩
    rw [hdel, hacc, respPorts_of_valid hv hq]
    simp [State.view, afterDelivery_queue, afterDelivery_accepted, takingCycle, hq]
  | reset =>
    refine ⟨resetCycle, _, (step_eq _).trans (if_pos rfl), rfl⟩

end Sys2Proof.Machine
end

section
/-! PROOFS. Infinite runs without reset: what is never lost, and what weak fairness makes happen (70_reset_and_hazards.md
R136, R139, R140). -/

namespace Sys2Proof.Machine

/-! ## One edge without reset -/

section
variable {c : ClockCycle} {s t : State} (hr : c.host.rst = false) (h : edge c s = .next t)
include hr h

/-- An edge keeps the sum of the entries queued and the responses delivered, but for the entry it accepts. -/
theorem edge_balance :
    t.queue.length + t.delivered.length = s.queue.length + s.delivered.length + (if accepts c s then 1 else 0) := by
  rw [edge_queue_length hr h, edge_delivered hr h]
  cases hdel : delivers c s with
  | false =>
    simp only [Bool.false_eq_true, if_false, List.append_nil, Nat.sub_zero]
    omega
  | true =>
    obtain ⟨e, q, hq, -⟩ := delivers_cases hdel
    simp only [hq, if_true, List.length_cons, List.length_append, List.length_nil]
    omega

/-- An oldest entry that is drawn to complete and not delivered is done afterwards. -/
theorem oldestDone_of_drawn (hdel : delivers c s = false) (hne : s.queue ≠ []) (hdraw : 0 ∈ c.draws.completing) :
    t.oldestDone = true := by
  obtain ⟨e, q, hq⟩ := List.exists_cons_of_ne_nil hne
  rw [State.oldestDone_iff, edge_queue hr h, hdel, hq]
  exact ⟨{ e with done := true }, _, by simp [completeEntries, hdraw]; rfl, rfl⟩

/-- A request that is offered and not accepted is on offer afterwards. -/
theorem offer_of_not_accepted (hv : c.host.reqValid = true) (hacc : accepts c s = false) :
    t.offer = some c.host.req := by
  rw [edge_of_no_reset hr h, afterDelivery_offer, hacc, hv]
  rfl

/-- The host goes on offering the request it has on offer (R136). -/
theorem request_held {r : Request} (ho : s.offer = some r) : c.host.reqValid = true ∧ c.host.req = r := by
  rcases edge_cases h with ⟨hr', -⟩ | ⟨-, hheld, -⟩
  · simp [hr] at hr'
  · exact (offerHeld_iff c s).1 hheld r ho

/-- A pending entry is not answered: it keeps its number, and is done where its position after the delivery is drawn. -/
theorem pending_entryAt_edge {a : Nat} {e : Entry} (he : s.entryAt a = some e) (hpend : e.done = false) :
    t.entryAt a = some { e with done := decide (a - t.delivered.length ∈ c.draws.completing) } := by
  rcases entryAt_edge hr h he with ⟨rfl, hanswer⟩ | hstays
  · rw [edge_delivered hr h] at hanswer
    cases hdel : delivers c s with
    | false => simp [hdel] at hanswer
    | true =>
      obtain ⟨e₀, q, hq, hdone, -⟩ := delivers_cases hdel
      rw [State.entryAt_oldest, hq] at he
      obtain rfl : e₀ = e := Option.some.inj he
      simp [hpend] at hdone
  · rwa [hpend, Bool.false_or] at hstays

end

/-- An entry with the `done` it has. -/
theorem Entry.with_done_self {e : Entry} {d : Bool} (h : e.done = d) : { e with done := d } = e := by
  subst h
  rfl

/-! ## A run without reset -/

section
variable {env : Nat → ClockCycle} {st : Nat → State} (run : IsRun env st) (hr : ∀ n, (env n).host.rst = false)
include run

/-- The invariant holds along a run. -/
theorem MachineInv.isRun (inv : MachineInv (st 0)) (n : Nat) : MachineInv (st n) := by
  induction n with
  | zero => exact inv
  | succ n ih => exact ih.edge (run n)

include hr

/-- The delivered responses of a cycle come first in those of every later cycle. -/
theorem delivered_prefix_of_le {n m : Nat} (hm : n ≤ m) : (st n).delivered.IsPrefix (st m).delivered := by
  induction m, hm using Nat.le_induction with
  | base => exact List.prefix_rfl
  | succ m _ ih =>
    rw [edge_delivered (hr m) (run m)]
    exact ih.trans (List.prefix_append _ _)

/-- The accepted requests of a cycle come first in those of every later cycle. -/
theorem accepted_prefix_of_le {n m : Nat} (hm : n ≤ m) : (st n).accepted.IsPrefix (st m).accepted := by
  induction m, hm using Nat.le_induction with
  | base => exact List.prefix_rfl
  | succ m _ ih =>
    rw [edge_accepted (hr m) (run m)]
    exact ih.trans (List.prefix_append _ _)

/-- While nothing is accepted, an entry leaves the queue for each response delivered. -/
theorem balance_of_no_acceptance {n m : Nat} (hm : n ≤ m)
    (hnone : ∀ k, n ≤ k → accepts (env k) (st k) = false) :
    (st m).queue.length + (st m).delivered.length = (st n).queue.length + (st n).delivered.length := by
  induction m, hm using Nat.le_induction with
  | base => rfl
  | succ m hm ih =>
    rw [edge_balance (hr m) (run m), hnone m hm, ih]
    rfl

/-- While nothing is delivered, a queue that holds an entry goes on holding one. -/
theorem queue_ne_nil_of_no_delivery {n m : Nat} (hm : n ≤ m) (hne : (st n).queue ≠ [])
    (hnone : ∀ k, n ≤ k → delivers (env k) (st k) = false) : (st m).queue ≠ [] := by
  induction m, hm using Nat.le_induction with
  | base => exact hne
  | succ m hm ih =>
    have hlen := edge_queue_length (hr m) (run m)
    rw [hnone m hm] at hlen
    rw [← List.length_pos_iff] at ih ⊢
    simp only [Bool.false_eq_true, if_false, Nat.sub_zero] at hlen
    omega

/-! ## Progress of the oldest entry -/

section
variable (takes : ∀ n, respValid (env n) (st n) = true → (env n).host.respReady = true)
  (fair : OldestCompletionFair env st)
include takes

omit run in
/-- A host that takes every response takes that of a done oldest entry. -/
theorem delivers_of_oldestDone {n : Nat} (hdone : (st n).oldestDone = true) : delivers (env n) (st n) = true := by
  have hv : respValid (env n) (st n) = true := by simp [respValid, hr n, hdone]
  exact (delivers_iff _ _).2 ⟨takes n hv, hv⟩

include fair

/-- A queue that holds an entry is answered: if nothing were delivered, its oldest entry would pend forever and yet be
drawn. -/
theorem exists_delivery {n : Nat} (hne : (st n).queue ≠ []) : ∃ m, n ≤ m ∧ delivers (env m) (st m) = true := by
  by_contra hnever
  have hnone : ∀ m, n ≤ m → delivers (env m) (st m) = false := fun m hm =>
    Bool.eq_false_iff.2 fun hdel => hnever ⟨m, hm, hdel⟩
  have hwaits : ∀ m, n ≤ m → (st m).queue ≠ [] ∧ (st m).oldestDone = false := fun m hm =>
    ⟨queue_ne_nil_of_no_delivery run hr hm hne hnone,
      Bool.eq_false_iff.2 fun hdone => hnever ⟨m, hm, delivers_of_oldestDone hr takes hdone⟩⟩
  obtain ⟨m, hm, hdraw⟩ := fair n hwaits
  have hdone := oldestDone_of_drawn (hr m) (run m) (hnone m hm) (hwaits m hm).1 hdraw
  exact hnever ⟨m + 1, Nat.le_succ_of_le hm, delivers_of_oldestDone hr takes hdone⟩

/-- A queue that holds an entry sees the number of delivered responses grow. -/
theorem exists_more_delivered {n : Nat} (hne : (st n).queue ≠ []) :
    ∃ m, n ≤ m ∧ (st n).delivered.length < (st m).delivered.length := by
  obtain ⟨m, hm, hdel⟩ := exists_delivery run hr takes fair hne
  have hlen := (delivered_prefix_of_le run hr hm).length_le
  refine ⟨m + 1, Nat.le_succ_of_le hm, ?_⟩
  rw [edge_delivered (hr m) (run m), if_pos hdel, List.length_append]
  exact Nat.lt_succ_of_le hlen

/-- Any number of responses is delivered at last where the queue holds an entry as long as they are not. -/
theorem exists_delivered_length {n k : Nat}
    (hne : ∀ m, n ≤ m → (st m).delivered.length < k → (st m).queue ≠ []) :
    ∃ m, n ≤ m ∧ k ≤ (st m).delivered.length := by
  induction k with
  | zero => exact ⟨n, Nat.le_refl n, Nat.zero_le _⟩
  | succ k ih =>
    obtain ⟨m, hm, hk⟩ := ih fun m hm hlt => hne m hm (Nat.lt_succ_of_lt hlt)
    by_cases hk' : (st m).delivered.length < k + 1
    · obtain ⟨m', hm', hmore⟩ := exists_more_delivered run hr takes fair (hne m hm hk')
      exact ⟨m', hm.trans hm', Nat.succ_le_of_lt (hk.trans_lt hmore)⟩
    · exact ⟨m, hm, Nat.le_of_not_lt hk'⟩

/-- While nothing is accepted the queue becomes empty, and stays so. -/
theorem exists_empty_forever {n : Nat} (hnone : ∀ k, n ≤ k → accepts (env k) (st k) = false) :
    ∃ m, n ≤ m ∧ ∀ k, m ≤ k → (st k).queue = [] := by
  obtain ⟨m, hm, hall⟩ :=
    exists_delivered_length (n := n) (k := (st n).queue.length + (st n).delivered.length) run hr takes fair
      fun m hm hlt hq => by
        have hbal := balance_of_no_acceptance run hr hm hnone
        rw [hq, List.length_nil] at hbal
        omega
  refine ⟨m, hm, fun k hk => List.length_eq_zero_iff.1 ?_⟩
  have hbal := balance_of_no_acceptance run hr (hm.trans hk) hnone
  have hlen := (delivered_prefix_of_le run hr hk).length_le
  omega

end

/-! ## A request that is never accepted -/

/-- A request on offer that no edge accepts stays on offer, unchanged. -/
theorem request_offered_forever {n m : Nat} (hm : n ≤ m) (hv : (env n).host.reqValid = true)
    (hnone : ∀ k, n ≤ k → (env k).host.req = (env n).host.req → accepts (env k) (st k) = false) :
    (env m).host.reqValid = true ∧ (env m).host.req = (env n).host.req := by
  induction m, hm using Nat.le_induction with
  | base => exact ⟨hv, rfl⟩
  | succ m hm ih =>
    obtain ⟨hvm, hreq⟩ := ih
    have hoffer := offer_of_not_accepted (hr m) (run m) hvm (hnone m hm hreq)
    obtain ⟨hv', hreq'⟩ := request_held (hr (m + 1)) (run (m + 1)) hoffer
    exact ⟨hv', hreq'.trans hreq⟩

end

/-! ## The obligations -/

/-- Settles O38: while a command accepted by cycle `n` lacks a response the queue holds an entry, so at last there are as
many responses, and these are the first of the results. -/
theorem everyAcceptedCommandIsDelivered : Obligations.EveryAcceptedCommandIsDelivered := by
  intro env st run inv hr takes fair n
  obtain ⟨m, hm, hlen⟩ :=
    exists_delivered_length (n := n) (k := (st n).accepted.length) run hr takes fair fun m hm hlt hq => by
      have hacc := (inv.isRun run m).agrees.accepted_length
      have hle := (accepted_prefix_of_le run hr hm).length_le
      rw [hq, List.length_nil] at hacc
      omega
  refine ⟨m, hm, hlen, List.prefix_of_prefix_length_le ((accepted_prefix_of_le run hr hm).map resultFn)
    (inv.isRun run m).agrees.delivered_prefix (by simpa using hlen)⟩

/-- Settles O39: a request never accepted would be offered forever to a core that is ready at last, since its queue would
have become empty. -/
theorem everyOfferedRequestIsAccepted : Obligations.EveryOfferedRequestIsAccepted := by
  intro env st run hr takes fair ready n hv
  by_contra hnever
  have hnone : ∀ k, n ≤ k → (env k).host.req = (env n).host.req → accepts (env k) (st k) = false := by
    refine fun k hk hreq => Bool.eq_false_iff.2 fun hacc => hnever ⟨k, hk, hacc, hreq, ?_⟩
    rw [edge_accepted (hr k) (run k), if_pos hacc, hreq]
  have hoffered := fun k (hk : n ≤ k) => request_offered_forever run hr hk hv hnone
  obtain ⟨m, hm, hempty⟩ := exists_empty_forever run hr takes fair fun k hk => hnone k hk (hoffered k hk).2
  have hroom : ∀ k, m ≤ k → (st k).queue.length < (st k).build.depth :=
    fun k hk => length_lt_depth_of_empty (hempty k hk)
  obtain ⟨k, hk, hdraw⟩ := ready m hroom
  obtain ⟨hvk, hreq⟩ := hoffered k (hm.trans hk)
  have hacc := (accepts_iff (env k) (st k)).2 ⟨hvk, (reqReady_of_room (hr k) (hroom k hk)).trans hdraw⟩
  rw [hnone k (hm.trans hk) hreq] at hacc
  exact Bool.false_ne_true hacc

/-- Settles O51: an entry that never became done would pend forever, as it is, and yet be drawn. -/
theorem everyEntryBecomesDone : Obligations.EveryEntryBecomesDone := by
  intro env st run hr fair n a e he
  by_contra hnever
  have hpend : e.done = false := Bool.eq_false_iff.2 fun hdone =>
    hnever ⟨n, Nat.le_refl n, by rw [Entry.with_done_self hdone, he]⟩
  have hstays : ∀ m, n ≤ m → (st m).entryAt a = some e := by
    intro m hm
    induction m, hm using Nat.le_induction with
    | base => exact he
    | succ m hm ih =>
      have hnext := pending_entryAt_edge (hr m) (run m) ih hpend
      by_cases hdraw : a - (st (m + 1)).delivered.length ∈ (env m).draws.completing
      · rw [decide_eq_true hdraw] at hnext
        exact absurd ⟨m + 1, Nat.le_succ_of_le hm, hnext⟩ hnever
      · rwa [decide_eq_false hdraw, Entry.with_done_self hpend] at hnext
  obtain ⟨m, hm, hdraw⟩ := fair n a fun m hm => ⟨e, hstays m hm, hpend⟩
  have hnext := pending_entryAt_edge (hr m) (run m) (hstays m hm) hpend
  rw [decide_eq_true hdraw] at hnext
  exact hnever ⟨m + 1, Nat.le_succ_of_le hm, hnext⟩

/-- Settles O52: an edge keeps the entry or answers it, and keeps every answer. -/
theorem acceptedOperandsAreKeptUntilAnswered : Obligations.AcceptedOperandsAreKeptUntilAnswered := by
  intro env st run hr n a e he m hm
  induction m, hm using Nat.le_induction with
  | base => exact .inl ⟨e, he, rfl, id⟩
  | succ m hm ih =>
    rcases ih with ⟨e', he', hreq, hdone⟩ | hanswered
    · rcases entryAt_edge (hr m) (run m) he' with ⟨rfl, hanswer⟩ | hstays
      · right
        simp [hanswer, hreq]
      · exact .inl ⟨_, hstays, hreq, fun hd => by simp [hdone hd]⟩
    · right
      have hlt := (List.getElem?_eq_some_iff.1 hanswered).1
      rw [edge_delivered (hr m) (run m), List.getElem?_append_left hlt, hanswered]

/-- Settles O53: beyond every cycle of the suffix `req_ready` is drawn again, and with room it is the draw. -/
theorem readyIsOfferedAgainAndAgain : Obligations.ReadyIsOfferedAgainAndAgain := by
  intro env st _ hr ready n hroom
  refine Set.infinite_of_forall_exists_gt fun k => ?_
  obtain ⟨m, hm, hdraw⟩ := ready (max n (k + 1)) fun m hm => hroom m ((le_max_left _ _).trans hm)
  have hn : n ≤ m := (le_max_left _ _).trans hm
  exact ⟨m, ⟨hn, (reqReady_of_room (hr m) (hroom m hn)).trans hdraw⟩, (le_max_right _ _).trans hm⟩

end Sys2Proof.Machine
end

section
/-! PROOFS. The deposit and extract engines (44_pdep_pext.md R101 to R106): the contract value taken apart at the lowest
mask bit, which the fast paths spell out. -/

namespace Sys2Proof.Machine

/-! ## A mask and its lowest bit -/

/-- A mask without its lowest bit is the mask with that bit cleared. -/
theorem xor_isolateLsb {n : Nat} (m : BitVec n) : m ^^^ isolateLsb m = clearLsb m := by
  refine BitVec.eq_of_getLsbD_eq fun i hi => ?_
  rw [BitVec.getLsbD_xor, getLsbD_isolateLsb m hi, getLsbD_clearLsb m hi]
  cases m.getLsbD i <;> by_cases h0 : bitsBelow m i = 0 <;> simp [h0]

/-- A mask of one bit is 0 without it. -/
theorem clearLsb_eq_zero {n : Nat} {m : BitVec n} (h : bitsBelow m n = 1) : clearLsb m = 0#n := by
  rw [eq_zero_iff_bitsBelow_eq_zero, bitsBelow_clearLsb m (Nat.le_refl n), h]

/-- A mask of one bit is that bit. -/
theorem isolateLsb_eq_self {n : Nat} {m : BitVec n} (h : bitsBelow m n = 1) : isolateLsb m = m := by
  rw [← BitVec.xor_eq_zero_iff, BitVec.xor_comm, xor_isolateLsb, clearLsb_eq_zero h]

/-- A mask of two bits is one bit without its lowest. -/
theorem bitsBelow_clearLsb_of_two {n : Nat} {m : BitVec n} (h : bitsBelow m n = 2) : bitsBelow (clearLsb m) n = 1 := by
  rw [bitsBelow_clearLsb m (Nat.le_refl n), h]

/-! ## The bit that a condition puts in place -/

/-- The value has the lowest mask bit exactly where it has a common bit with it. -/
theorem and_isolateLsb_ne_zero_iff {n : Nat} (x m : BitVec n) {i : Nat} (hmi : m.getLsbD i = true)
    (h0 : bitsBelow m i = 0) : x &&& isolateLsb m ≠ 0#n ↔ x.getLsbD i = true := by
  have hi : i < n := BitVec.lt_of_getLsbD hmi
  constructor
  · intro hne
    by_contra hxi
    refine hne ((eq_zero_iff_no_bit _).2 fun j hj => ?_)
    rw [BitVec.getLsbD_and, getLsbD_isolateLsb m hj]
    rcases lt_trichotomy i j with hij | rfl | hji
    · have hpos : bitsBelow m j ≠ 0 := Nat.ne_of_gt ((Nat.zero_le _).trans_lt (bitsBelow_lt_of_set hmi hij))
      simp [hpos]
    · simp [hxi]
    · have hmj : m.getLsbD j = false := by
        by_contra hmj
        exact (bitsBelow_eq_zero_iff m i).1 h0 ⟨j, hji, by simpa using hmj⟩
      simp [hmj]
  · intro hxi hzero
    have hbit := (eq_zero_iff_no_bit _).1 hzero i hi
    rw [BitVec.getLsbD_and, getLsbD_isolateLsb m hi, hxi, hmi, h0] at hbit
    simp at hbit

/-- The one-bit value that a condition gives. -/
theorem getLsbD_ite_one {n : Nat} (p : Prop) [Decidable p] {j : Nat} (hj : j < n) :
    (if p then 1#n else 0#n).getLsbD j = (decide p && decide (j = 0)) := by
  by_cases hp : p
  · simp [hp, BitVec.getLsbD_one, Nat.zero_lt_of_lt hj]
  · simp [hp]

/-- An extract, taken apart at the lowest mask bit: its bit of the value is bit 0, and those of the rest of the mask stand
above it. -/
theorem pext_eq_lowest_or {n : Nat} (x m : BitVec n) :
    pext x m = (if x &&& isolateLsb m ≠ 0#n then 1#n else 0#n) ||| pext x (clearLsb m) <<< 1 := by
  obtain ⟨hrest, habove⟩ := isPext_pext x (clearLsb m)
  have hcount : ∀ {i}, i ≤ n → bitsBelow (clearLsb m) i = bitsBelow m i - 1 := fun hi => bitsBelow_clearLsb m hi
  refine IsPext.pext_eq ⟨fun i hi hmi => ?_, fun j hj => ?_⟩
  · have hn : bitsBelow m i < n := (bitsBelow_le m i).trans_lt hi
    rw [BitVec.getLsbD_or, BitVec.getLsbD_shiftLeft, getLsbD_ite_one _ hn]
    by_cases h0 : bitsBelow m i = 0
    · simp only [and_isolateLsb_ne_zero_iff x m hmi h0]
      simp [h0]
    · have hbit := hrest i hi (by rw [getLsbD_clearLsb m hi, hmi]; simp [h0])
      rw [hcount hi.le] at hbit
      have hpos : ¬ bitsBelow m i < 1 := by omega
      simp [h0, hn, hpos, hbit]
  · by_cases hjn : j < n
    · rw [BitVec.getLsbD_or, BitVec.getLsbD_shiftLeft, getLsbD_ite_one _ hjn, habove (j - 1) (by rw [hcount le_rfl]; omega)]
      by_cases hj0 : j = 0
      · have hm : m = 0#n := (eq_zero_iff_bitsBelow_eq_zero m).2 (by omega)
        simp [hm, isolateLsb]
      · simp [hj0]
    · exact BitVec.getLsbD_of_ge _ j (Nat.le_of_not_lt hjn)

/-! ## The engines -/

/-- The value 1, moved up by one, where a condition gives it. -/
theorem ite_one_shiftLeft {n : Nat} (p : Prop) [Decidable p] :
    (if p then 1#n else 0#n) <<< 1 = if p then 2#n else 0#n := by
  by_cases hp : p
  · rw [if_pos hp, if_pos hp]
    exact BitVec.eq_of_toNat_eq (by simp [Nat.shiftLeft_eq])
  · simp [hp]

/-- Every path of the deposit engine gives the deposit (R101 to R105). -/
theorem pdepRef_eq {n : Nat} (x m : BitVec n) : pdepRef x m = pdep x m := by
  unfold pdepRef
  split
  · next h =>
    obtain rfl : m = 0#n := (eq_zero_iff_bitsBelow_eq_zero m).2 ((popc_eq m).symm.trans h)
    simp
  · next h =>
    rw [popc_eq] at h
    rw [pdep_eq_isolateLsb_or x m, clearLsb_eq_zero h, isolateLsb_eq_self h, pdep_zero_mask, BitVec.or_zero]
  · next h =>
    rw [popc_eq] at h
    have h1 := bitsBelow_clearLsb_of_two h
    rw [pdep_eq_isolateLsb_or x m, pdep_eq_isolateLsb_or (x >>> 1) (clearLsb m), clearLsb_eq_zero h1,
      isolateLsb_eq_self h1, pdep_zero_mask, BitVec.or_zero, BitVec.getLsbD_ushiftRight]
    simp only [xor_isolateLsb]
  · rw [pdepLoop_eq]

/-- Every path of the extract engine gives the extract (R101 to R104, R106). -/
theorem pextRef_eq {n : Nat} (x m : BitVec n) : pextRef x m = pext x m := by
  unfold pextRef
  split
  · next h =>
    obtain rfl : m = 0#n := (eq_zero_iff_bitsBelow_eq_zero m).2 ((popc_eq m).symm.trans h)
    simp
  · next h =>
    rw [popc_eq] at h
    rw [pext_eq_lowest_or x m, clearLsb_eq_zero h, isolateLsb_eq_self h, pext_zero_mask, BitVec.zero_shiftLeft,
      BitVec.or_zero]
  · next h =>
    rw [popc_eq] at h
    have h1 := bitsBelow_clearLsb_of_two h
    rw [pext_eq_lowest_or x m, pext_eq_lowest_or x (clearLsb m), clearLsb_eq_zero h1, isolateLsb_eq_self h1,
      pext_zero_mask, BitVec.zero_shiftLeft, BitVec.or_zero, ite_one_shiftLeft]
    simp only [xor_isolateLsb]
  · rw [pextLoop_eq]

/-! ## The obligation -/

/-- Settles O47: each engine is its contract function. -/
theorem depositExtractEnginesAreExact : Obligations.DepositExtractEnginesAreExact := by
  intro n x m
  rw [pdepRef_eq, pextRef_eq]
  exact ⟨isPdep_pdep x m, isPext_pext x m⟩

end Sys2Proof.Machine
end

section
/-! PROOFS. The de Bruijn scans (41_bitscan.md R81 to R83): the multiplier sends each power of two, or each run of ones, to
its place in the table. -/

namespace Sys2Proof.Machine

/-! ## The lowest set bit, isolated -/

/-- Where `r` is the lowest set bit, isolation gives 2^r. -/
theorem isolateLsb_eq_twoPow {n : Nat} {x : BitVec n} {r : Nat} (hr : x.getLsbD r = true)
    (hlow : ∀ i, i < r → x.getLsbD i = false) : isolateLsb x = BitVec.twoPow n r := by
  have h0 : bitsBelow x r = 0 := (bitsBelow_eq_zero_iff x r).2 fun ⟨j, hj, hxj⟩ => by simp [hlow j hj] at hxj
  refine BitVec.eq_of_getLsbD_eq fun i hi => ?_
  rw [getLsbD_isolateLsb x hi, BitVec.getLsbD_twoPow]
  rcases lt_trichotomy i r with hlt | rfl | hgt
  · simp [hlow i hlt, hlt.ne']
  · simp [hr, h0, hi]
  · have hpos : bitsBelow x i ≠ 0 := Nat.ne_of_gt ((Nat.zero_le _).trans_lt (bitsBelow_lt_of_set hr hgt))
    simp [hpos, hgt.ne]

/-- `DB_CTZ` at the product of a power of two holds its exponent (R53). -/
theorem rom_dbCtz : ∀ r < 32, rom dbCtz ((BitVec.twoPow 32 r * dbmCtz) >>> 27).toNat = r := by decide

/-- `CTZ_REF_32` is exact (R81). -/
theorem isCtz_ctzRef32 (x : Half) : IsCtz x (ctzRef32 x) := by
  have h := isCtz_ctz x
  by_cases hx : x = 0#32
  · simp [IsCtz, ctzRef32, hx]
  · simp only [IsCtz, hx, if_false] at h
    obtain ⟨hbit, hlow⟩ := h
    simp only [IsCtz, ctzRef32, hx, if_false, isolateLsb_eq_twoPow hbit hlow, rom_dbCtz _ (BitVec.lt_of_getLsbD hbit)]
    exact ⟨hbit, hlow⟩

/-! ## The smear -/

/-- Bit `j` of `y` is set exactly where one of the `k` bits of `x` from `j` on is. -/
def SmearedBy {n : Nat} (x : BitVec n) (k : Nat) (y : BitVec n) : Prop :=
  ∀ j, y.getLsbD j = true ↔ ∃ i, j ≤ i ∧ i < j + k ∧ x.getLsbD i = true

/-- A value is its own smear by one bit. -/
theorem smearedBy_one {n : Nat} (x : BitVec n) : SmearedBy x 1 x := by
  refine fun j => ⟨fun h => ⟨j, by omega, by omega, h⟩, fun ⟨i, hji, hij, h⟩ => ?_⟩
  obtain rfl : i = j := by omega
  exact h

/-- A step of R82 doubles the reach of a smear. -/
theorem SmearedBy.double {n k : Nat} {x y : BitVec n} (h : SmearedBy x k y) : SmearedBy x (2 * k) (y ||| y >>> k) := by
  intro j
  rw [BitVec.getLsbD_or, BitVec.getLsbD_ushiftRight, Bool.or_eq_true, h j, h (k + j)]
  constructor
  · rintro (⟨i, h1, h2, hi⟩ | ⟨i, h1, h2, hi⟩) <;> exact ⟨i, by omega, by omega, hi⟩
  · rintro ⟨i, h1, h2, hi⟩
    by_cases hik : i < j + k
    · exact .inl ⟨i, h1, hik, hi⟩
    · exact .inr ⟨i, by omega, by omega, hi⟩

/-- The five steps of R82 smear by the whole width. -/
theorem smearedBy_smear32 (x : Half) : SmearedBy x 32 (smear32 x) :=
  (smearedBy_one x).double.double.double.double.double

/-- Where `i` is the highest set bit, the smear is the run of ones up to it. -/
theorem smear32_eq_ones {x : Half} {i : Nat} (hi : x.getLsbD i = true)
    (hhigh : ∀ j, i < j → x.getLsbD j = false) : smear32 x = BitVec.ofNat 32 (2 ^ (i + 1) - 1) := by
  have hin : i < 32 := BitVec.lt_of_getLsbD hi
  refine BitVec.eq_of_getLsbD_eq fun j hj => ?_
  rw [Bool.eq_iff_iff, smearedBy_smear32 x j, BitVec.getLsbD_ofNat, Nat.testBit_two_pow_sub_one]
  simp only [hj, decide_true, Bool.true_and, decide_eq_true_eq]
  constructor
  · rintro ⟨k, hjk, -, hk⟩
    have hki : k ≤ i := by
      by_contra hlt
      simp [hhigh k (Nat.lt_of_not_le hlt)] at hk
    omega
  · intro hji
    exact ⟨i, by omega, by omega, hi⟩

/-- `DB_CLZ` at the product of a run of ones holds the position of its highest (R54). -/
theorem rom_dbClz : ∀ i < 32, rom dbClz ((BitVec.ofNat 32 (2 ^ (i + 1) - 1) * dbmClz) >>> 27).toNat = i := by decide

/-- `CLZ_REF_32` is exact (R82). -/
theorem isClz_clzRef32 (x : Half) : IsClz x (clzRef32 x) := by
  have h := isClz_clz x
  by_cases hx : x = 0#32
  · simp [IsClz, clzRef32, hx]
  · simp only [IsClz, hx, if_false] at h
    obtain ⟨i, hi, hhigh, -⟩ := h
    simp only [IsClz, clzRef32, hx, if_false, smear32_eq_ones hi hhigh, rom_dbClz _ (BitVec.lt_of_getLsbD hi)]
    exact ⟨i, hi, hhigh, rfl⟩

/-! ## Words, scanned by their halves -/

/-- The bits of the low half are those of the word below position 32. -/
theorem getLsbD_lowHalf (x : Word) {i : Nat} (hi : i < 32) : (lowHalf x).getLsbD i = x.getLsbD i := by
  rw [lowHalf, BitVec.getLsbD_setWidth, decide_eq_true hi, Bool.true_and]

/-- The bits of the high half are those of the word from position 32 on. -/
theorem getLsbD_highHalf (x : Word) (i : Nat) : (highHalf x).getLsbD i = x.getLsbD (32 + i) := by
  rw [highHalf, BitVec.getLsbD_extractLsb']
  by_cases hi : i < 32
  · simp [hi]
  · simp [hi, BitVec.getLsbD_of_ge x (32 + i) (by omega)]

/-- A word is 0 exactly where both halves are. -/
theorem word_eq_zero_iff (x : Word) : x = 0#64 ↔ highHalf x = 0#32 ∧ lowHalf x = 0#32 := by
  have h := highHalf_lowHalf_recombine x
  simp only [← BitVec.toNat_inj, BitVec.toNat_ofNat, Nat.zero_mod]
  omega

/-- The low half with a set bit has the word's lowest set bit. -/
theorem IsCtz.of_lowHalf {x : Word} {r : Nat} (hlow : lowHalf x ≠ 0#32) (h : IsCtz (lowHalf x) r) : IsCtz x r := by
  have hx : x ≠ 0#64 := fun hx => hlow ((word_eq_zero_iff x).1 hx).2
  simp only [IsCtz, hlow, hx, if_false] at h ⊢
  obtain ⟨hbit, hbelow⟩ := h
  have hr : r < 32 := BitVec.lt_of_getLsbD hbit
  rw [getLsbD_lowHalf x hr] at hbit
  exact ⟨hbit, fun i hi => (getLsbD_lowHalf x (hi.trans hr)).symm.trans (hbelow i hi)⟩

/-- With the low half 0 the word's lowest set bit is that of the high half, and the width where there is none. -/
theorem IsCtz.of_highHalf {x : Word} {r : Nat} (hlow : lowHalf x = 0#32) (h : IsCtz (highHalf x) r) :
    IsCtz x (32 + r) := by
  by_cases hhigh : highHalf x = 0#32
  · have hx : x = 0#64 := (word_eq_zero_iff x).2 ⟨hhigh, hlow⟩
    rw [IsCtz, if_pos hhigh] at h
    rw [IsCtz, if_pos hx, h]
  · have hx : x ≠ 0#64 := fun hx => hhigh ((word_eq_zero_iff x).1 hx).1
    simp only [IsCtz, hhigh, hx, if_false, getLsbD_highHalf] at h ⊢
    obtain ⟨hbit, hbelow⟩ := h
    refine ⟨hbit, fun i hi => ?_⟩
    by_cases hi32 : i < 32
    · rw [← getLsbD_lowHalf x hi32, hlow, BitVec.getLsbD_zero]
    · have hshift := hbelow (i - 32) (by omega)
      rwa [Nat.add_sub_cancel' (Nat.le_of_not_lt hi32)] at hshift

/-- The high half with a set bit has the word's highest set bit. -/
theorem IsClz.of_highHalf {x : Word} {r : Nat} (hhigh : highHalf x ≠ 0#32) (h : IsClz (highHalf x) r) : IsClz x r := by
  have hx : x ≠ 0#64 := fun hx => hhigh ((word_eq_zero_iff x).1 hx).1
  simp only [IsClz, hhigh, hx, if_false, getLsbD_highHalf] at h ⊢
  obtain ⟨i, hi, habove, rfl⟩ := h
  refine ⟨32 + i, hi, fun j hj => ?_, by omega⟩
  have hshift := habove (j - 32) (by omega)
  rwa [Nat.add_sub_cancel' (by omega)] at hshift

/-- With the high half 0 the word's highest set bit is that of the low half, and the width where there is none. -/
theorem IsClz.of_lowHalf {x : Word} {r : Nat} (hhigh : highHalf x = 0#32) (h : IsClz (lowHalf x) r) :
    IsClz x (32 + r) := by
  by_cases hlow : lowHalf x = 0#32
  · have hx : x = 0#64 := (word_eq_zero_iff x).2 ⟨hhigh, hlow⟩
    rw [IsClz, if_pos hlow] at h
    rw [IsClz, if_pos hx, h]
  · have hx : x ≠ 0#64 := fun hx => hlow ((word_eq_zero_iff x).1 hx).2
    simp only [IsClz, hlow, hx, if_false] at h ⊢
    obtain ⟨i, hi, habove, rfl⟩ := h
    have hi32 : i < 32 := BitVec.lt_of_getLsbD hi
    rw [getLsbD_lowHalf x hi32] at hi
    refine ⟨i, hi, fun j hj => ?_, by omega⟩
    by_cases hj32 : j < 32
    · exact (getLsbD_lowHalf x hj32).symm.trans (habove j hj)
    · have hshift := getLsbD_highHalf x (j - 32)
      rwa [hhigh, BitVec.getLsbD_zero, Nat.add_sub_cancel' (Nat.le_of_not_lt hj32), eq_comm] at hshift

/-- `CTZ_REF_64` is exact (R83). -/
theorem isCtz_ctzRef64 (x : Word) : IsCtz x (ctzRef64 x) := by
  rw [ctzRef64]
  by_cases hlow : lowHalf x = 0#32
  · rw [if_neg (not_not.2 hlow)]
    exact .of_highHalf hlow (isCtz_ctzRef32 _)
  · rw [if_pos hlow]
    exact .of_lowHalf hlow (isCtz_ctzRef32 _)

/-- `CLZ_REF_64` is exact (R83). -/
theorem isClz_clzRef64 (x : Word) : IsClz x (clzRef64 x) := by
  rw [clzRef64]
  by_cases hhigh : highHalf x = 0#32
  · rw [if_neg (not_not.2 hhigh)]
    exact .of_lowHalf hhigh (isClz_clzRef32 _)
  · rw [if_pos hhigh]
    exact .of_highHalf hhigh (isClz_clzRef32 _)

/-! ## The obligation -/

/-- Settles O44, scan by scan. -/
theorem scanDatapathsAreExact : Obligations.ScanDatapathsAreExact :=
  ⟨fun x => ⟨isCtz_ctzRef32 x, isClz_clzRef32 x⟩, fun x => ⟨isCtz_ctzRef64 x, isClz_clzRef64 x⟩⟩

end Sys2Proof.Machine
end

section
/-! PROOFS. The SWAR tree (42_popcount.md R89): a value as lanes of equal width, on which the masks, shifts and sums of the
tree act lane by lane, since no sum leaves its lane. -/

namespace Sys2Proof.Machine

/-! ## Lanes of a number -/

/-- The number whose lane `k`, of `w` bits, is `f k`, for the `l` lanes from the lowest. -/
def lanes (w : Nat) (f : Nat → Nat) (l : Nat) : Nat := ∑ k ∈ Finset.range l, 2 ^ (w * k) * f k

/-- No lane. -/
@[simp] theorem lanes_zero (w : Nat) (f : Nat → Nat) : lanes w f 0 = 0 := rfl

/-- One more lane. -/
theorem lanes_succ (w : Nat) (f : Nat → Nat) (l : Nat) : lanes w f (l + 1) = 2 ^ (w * l) * f l + lanes w f l :=
  (Finset.sum_range_succ _ l).trans (Nat.add_comm _ _)

/-- One lane. -/
@[simp] theorem lanes_one (w : Nat) (f : Nat → Nat) : lanes w f 1 = f 0 := by simp [lanes]

/-- Lanes are added lane by lane. -/
theorem lanes_add (w : Nat) (f g : Nat → Nat) (l : Nat) :
    lanes w f l + lanes w g l = lanes w (fun k => f k + g k) l := by
  simp only [lanes, Nat.mul_add, Finset.sum_add_distrib]

/-- The lanes from lane `j` on stand above those below it. -/
theorem lanes_append (w : Nat) (f : Nat → Nat) (j l : Nat) :
    lanes w f (j + l) = lanes w f j + 2 ^ (w * j) * lanes w (fun k => f (j + k)) l := by
  simp only [lanes, Finset.sum_range_add, Finset.mul_sum, Nat.mul_add, Nat.pow_add, Nat.mul_assoc]

/-- Lanes of 0 add nothing. -/
theorem lanes_eq_of_zero_above {w l : Nat} {f : Nat → Nat} (hzero : ∀ k, l ≤ k → f k = 0) (j : Nat) :
    lanes w f (l + j) = lanes w f l := by
  have habove : lanes w (fun k => f (l + k)) j = 0 :=
    Finset.sum_eq_zero fun k _ => by simp only [hzero (l + k) (Nat.le_add_right l k), Nat.mul_zero]
  rw [lanes_append, habove, Nat.mul_zero, Nat.add_zero]

/-- Values that fit in their lanes make a number that fits in all of them. -/
theorem lanes_lt {w l : Nat} {f : Nat → Nat} (hf : ∀ k < l, f k < 2 ^ w) : lanes w f l < 2 ^ (w * l) := by
  induction l with
  | zero => simp
  | succ l ih =>
    have hlow := ih fun k hk => hf k (Nat.lt_succ_of_lt hk)
    have htop : 2 ^ (w * l) * (f l + 1) ≤ 2 ^ (w * l) * 2 ^ w := Nat.mul_le_mul_left _ (hf l (Nat.lt_succ_self l))
    rw [lanes_succ, Nat.mul_succ, Nat.pow_add]
    rw [Nat.mul_succ] at htop
    omega

/-- A shift by `j` lanes moves each lane down by `j`. -/
theorem lanes_div {w l : Nat} {f : Nat → Nat} (hf : ∀ k, f k < 2 ^ w) (hzero : ∀ k, l ≤ k → f k = 0) (j : Nat) :
    lanes w f l / 2 ^ (w * j) = lanes w (fun k => f (j + k)) l := by
  rw [← lanes_eq_of_zero_above hzero j, Nat.add_comm l j, lanes_append,
    Nat.add_mul_div_left _ _ (Nat.two_pow_pos _), Nat.div_eq_of_lt (lanes_lt fun k _ => hf k), Nat.zero_add]

/-- The lowest lane of any number of lanes. -/
theorem lanes_mod {w l : Nat} {f : Nat → Nat} (hf : f 0 < 2 ^ w) : lanes w f (1 + l) % 2 ^ w = f 0 := by
  rw [lanes_append, Nat.mul_one, Nat.add_mul_mod_self_left, lanes_one, Nat.mod_eq_of_lt hf]

/-- The highest lane of any number of lanes. -/
theorem lanes_succ_div {w l : Nat} {f : Nat → Nat} (hf : ∀ k < l, f k < 2 ^ w) :
    lanes w f (l + 1) / 2 ^ (w * l) = f l := by
  rw [lanes_succ, Nat.mul_add_div (Nat.two_pow_pos _), Nat.div_eq_of_lt (lanes_lt hf), Nat.add_zero]

/-- Two neighbouring lanes are one lane of twice the width. -/
theorem lanes_double (w : Nat) (f : Nat → Nat) (l : Nat) :
    lanes w f (2 * l) = lanes (2 * w) (fun k => 2 ^ w * f (2 * k + 1) + f (2 * k)) l := by
  induction l with
  | zero => rfl
  | succ l ih =>
    have hodd : w * (2 * l + 1) = 2 * w * l + w := by ring
    have heven : w * (2 * l) = 2 * w * l := by ring
    rw [Nat.mul_succ, lanes_succ, lanes_succ, lanes_succ, ih, hodd, heven, Nat.pow_add]
    ring

/-- Bitwise and acts separately on what is below 2^k and what stands above. -/
theorem two_pow_mul_add_and {a b k : Nat} (ha : a < 2 ^ k) (hb : b < 2 ^ k) (c d : Nat) :
    (2 ^ k * c + a) &&& (2 ^ k * d + b) = 2 ^ k * (c &&& d) + (a &&& b) := by
  refine Nat.eq_of_testBit_eq fun i => ?_
  rw [Nat.testBit_and, Nat.testBit_two_pow_mul_add c ha, Nat.testBit_two_pow_mul_add d hb,
    Nat.testBit_two_pow_mul_add _ (Nat.and_lt_two_pow a hb)]
  split
  · rw [Nat.testBit_and]
  · rw [Nat.testBit_and]

/-- Bitwise and acts lane by lane. -/
theorem lanes_and {w l : Nat} {f g : Nat → Nat} (hf : ∀ k, f k < 2 ^ w) (hg : ∀ k, g k < 2 ^ w) :
    lanes w f l &&& lanes w g l = lanes w (fun k => f k &&& g k) l := by
  induction l with
  | zero => simp
  | succ l ih =>
    rw [lanes_succ, lanes_succ, lanes_succ,
      two_pow_mul_add_and (lanes_lt fun k _ => hf k) (lanes_lt fun k _ => hg k), ih]

/-! ## The sum of the lanes -/

/-- The sum of the lanes up to lane `k`. -/
def prefixSum (f : Nat → Nat) (k : Nat) : Nat := ∑ j ∈ Finset.range (k + 1), f j

/-- Lane 0 gives the first sum, and each further lane adds to the sum before it. -/
theorem lanes_prefixSum_succ (w : Nat) (f : Nat → Nat) (l : Nat) :
    lanes w (prefixSum f) (l + 1) = lanes w f (l + 1) + 2 ^ w * lanes w (prefixSum f) l := by
  have hnext : ∀ k, prefixSum f (1 + k) = f (1 + k) + prefixSum f k := fun k => by
    rw [prefixSum, Nat.add_comm 1 k, Finset.sum_range_succ, Nat.add_comm]
    rfl
  have hfirst : prefixSum f 0 = f 0 := Finset.sum_range_one f
  simp only [Nat.add_comm l 1, lanes_append, lanes_one, hnext, hfirst, ← lanes_add, Nat.mul_one]
  ring

/-- Multiplication by 1 in each lane sums the lanes up to each lane; what leaves the top lane is a multiple of 2^(w l). -/
theorem lanes_mul_ones (w : Nat) (f : Nat → Nat) (l : Nat) :
    lanes w f l * lanes w (fun _ => 1) l ≡ lanes w (prefixSum f) l [MOD 2 ^ (w * l)] := by
  induction l with
  | zero => rfl
  | succ l ih =>
    have hones : lanes w f (l + 1) * lanes w (fun _ => 1) (l + 1) =
        lanes w f (l + 1) + 2 ^ w * (lanes w f (l + 1) * lanes w (fun _ => 1) l) := by
      rw [Nat.add_comm l 1, lanes_append w (fun _ => 1) 1 l, lanes_one, Nat.mul_one]
      ring
    have hlow : lanes w f (l + 1) ≡ lanes w f l [MOD 2 ^ (w * l)] := by
      rw [lanes_succ, Nat.ModEq, Nat.mul_add_mod]
    have hpow : 2 ^ (w * (l + 1)) = 2 ^ w * 2 ^ (w * l) := by
      rw [Nat.mul_succ, Nat.pow_add, Nat.mul_comm]
    rw [hones, lanes_prefixSum_succ, hpow]
    exact (((hlow.mul_right _).trans ih).mul_left' _).add_left _

/-! ## Lanes of a word -/

/-- `y` is `l` lanes of `w` bits with the values `f`, of which none is above `b`, and which is 0 beyond the lanes. -/
structure HasLanes {n : Nat} (y : BitVec n) (w l b : Nat) (f : Nat → Nat) : Prop where
  width : n = w * l
  value : y.toNat = lanes w f l
  bound : ∀ k, f k ≤ b
  fits : b < 2 ^ w
  outside : ∀ k, l ≤ k → f k = 0

/-- `m` is 1 in the lower half of each of `l` lanes of `2 w` bits (R55). -/
def IsLaneMask {n : Nat} (m : BitVec n) (w l : Nat) : Prop := m.toNat = lanes (2 * w) (fun _ => 2 ^ w - 1) l

/-- A value is its bits. -/
theorem hasLanes_bits {n : Nat} (x : BitVec n) : HasLanes x 1 n 1 fun k => (x.getLsbD k).toNat := by
  have hlow : ∀ k, x.toNat % 2 ^ k = lanes 1 (fun k => (x.getLsbD k).toNat) k := fun k => by
    induction k with
    | zero => simp [Nat.mod_one]
    | succ k ih =>
      rw [lanes_succ, ← ih, Nat.mod_pow_succ, ← Nat.toNat_testBit, Nat.one_mul, Nat.add_comm]
      rfl
  refine ⟨(Nat.one_mul n).symm, ?_, fun k => Bool.toNat_le _, by decide, fun k hk => ?_⟩
  · rw [← hlow, Nat.mod_eq_of_lt x.isLt]
  · simp only [BitVec.getLsbD_of_ge x k hk, Bool.toNat_false]

namespace HasLanes
variable {n w l b : Nat} {y : BitVec n} {f : Nat → Nat} (h : HasLanes y w l b f)
include h

/-- Each value fits in its lane. -/
theorem lt (k : Nat) : f k < 2 ^ w := (h.bound k).trans_lt h.fits

/-- A shift by `j` lanes moves each lane down by `j`. -/
theorem shift (j : Nat) : HasLanes (y >>> (w * j)) w l b fun k => f (k + j) where
  width := h.width
  value := by
    rw [BitVec.toNat_ushiftRight, Nat.shiftRight_eq_div_pow, h.value, lanes_div h.lt h.outside]
    simp only [Nat.add_comm]
  bound := fun k => h.bound (k + j)
  fits := h.fits
  outside := fun k hk => h.outside (k + j) (hk.trans (Nat.le_add_right k j))

/-- Words whose sums fit in their lanes are added lane by lane. -/
theorem add {y' : BitVec n} {b' : Nat} {f' : Nat → Nat} (h' : HasLanes y' w l b' f') (hfits : b + b' < 2 ^ w) :
    HasLanes (y + y') w l (b + b') fun k => f k + f' k where
  width := h.width
  value := by
    have hlt : lanes w (fun k => f k + f' k) l < 2 ^ (w * l) :=
      lanes_lt fun k _ => (Nat.add_le_add (h.bound k) (h'.bound k)).trans_lt hfits
    rw [BitVec.toNat_add, h.value, h'.value, lanes_add, h.width, Nat.mod_eq_of_lt hlt]
  bound := fun k => Nat.add_le_add (h.bound k) (h'.bound k)
  fits := hfits
  outside := fun k hk => by rw [h.outside k hk, h'.outside k hk]

end HasLanes

/-- A mask keeps the even ones of the lanes, each in a lane of twice the width. -/
theorem HasLanes.and_mask {n w l b : Nat} {y m : BitVec n} {f : Nat → Nat} (h : HasLanes y w (2 * l) b f)
    (hm : IsLaneMask m w l) : HasLanes (y &&& m) (2 * w) l b fun k => f (2 * k) where
  width := h.width.trans (by ring)
  value := by
    have hpair : ∀ k, 2 ^ w * f (2 * k + 1) + f (2 * k) < 2 ^ (2 * w) := fun k => by
      have hodd : 2 ^ w * (f (2 * k + 1) + 1) ≤ 2 ^ w * 2 ^ w := Nat.mul_le_mul_left _ (h.lt _)
      have heven := h.lt (2 * k)
      rw [Nat.two_mul w, Nat.pow_add]
      rw [Nat.mul_succ] at hodd
      omega
    have hone : ∀ _ : Nat, 2 ^ w - 1 < 2 ^ (2 * w) := fun _ =>
      (Nat.sub_lt (Nat.two_pow_pos w) Nat.one_pos).trans_le (Nat.pow_le_pow_right (by decide) (by omega))
    rw [BitVec.toNat_and, h.value, hm, lanes_double, lanes_and hpair hone]
    simp only [Nat.and_two_pow_sub_one_eq_mod, Nat.mul_add_mod, Nat.mod_eq_of_lt (h.lt _)]
  bound := fun k => h.bound (2 * k)
  fits := h.fits.trans_le (Nat.pow_le_pow_right (by decide) (by omega))
  outside := fun k hk => h.outside (2 * k) (by omega)

/-! ## The steps of the tree -/

/-- The sums of neighbouring lanes. -/
def pairSum (f : Nat → Nat) (k : Nat) : Nat := f (2 * k) + f (2 * k + 1)

/-- The sums of neighbouring lanes sum to the same. -/
theorem sum_pairSum (f : Nat → Nat) (l : Nat) :
    ∑ k ∈ Finset.range l, pairSum f k = ∑ k ∈ Finset.range (2 * l), f k := by
  induction l with
  | zero => rfl
  | succ l ih => rw [Finset.sum_range_succ, ih, Nat.mul_succ, Finset.sum_range_succ, Finset.sum_range_succ, Nat.add_assoc,
      pairSum]

/-- The masks of R55 at a width of `l` bytes, as the lanes they keep. -/
structure IsSwarMasks {n : Nat} (k : SwarMasks n) (l : Nat) : Prop where
  m1 : IsLaneMask k.m1 1 (2 * (2 * l))
  m2 : IsLaneMask k.m2 2 (2 * l)
  m4 : IsLaneMask k.m4 4 l
  h01 : k.h01.toNat = lanes 8 (fun _ => 1) l

section
variable {n l : Nat} {k : SwarMasks n} (hk : IsSwarMasks k l)
include hk

/-- The tree sums the bits of each byte. -/
theorem hasLanes_swarTree {x : BitVec n} {f : Nat → Nat} (h : HasLanes x 1 (2 * (2 * (2 * l))) 1 f) :
    HasLanes (swarTree k x) 8 l 8 (pairSum (pairSum (pairSum f))) := by
  have hpairs : HasLanes (swarPairs k x) 2 (2 * (2 * l)) 2 (pairSum f) :=
    (h.and_mask hk.m1).add ((h.shift 1).and_mask hk.m1) (by decide)
  have hnibbles : HasLanes (swarNibbles k (swarPairs k x)) 4 (2 * l) 4 (pairSum (pairSum f)) :=
    (hpairs.and_mask hk.m2).add ((hpairs.shift 1).and_mask hk.m2) (by decide)
  exact (hnibbles.add (hnibbles.shift 1) (by decide)).and_mask hk.m4

/-- The subtracting form of the first step is the adding one: the value is its even bits and twice its odd ones. -/
theorem swarPairsBySub_eq {x : BitVec n} {f : Nat → Nat} (h : HasLanes x 1 (2 * (2 * (2 * l))) 1 f) :
    swarPairsBySub k x = swarPairs k x := by
  have heven := h.and_mask hk.m1
  have hodd := (h.shift 1).and_mask hk.m1
  have hthree := (heven.add hodd (by decide)).add hodd (by decide)
  have hx : x = (x &&& k.m1) + (x >>> 1 &&& k.m1) + (x >>> 1 &&& k.m1) := by
    refine BitVec.eq_of_toNat_eq ?_
    rw [h.value, lanes_double]
    refine (congrArg (lanes 2 · (2 * (2 * l))) (funext fun k => ?_)).trans hthree.value.symm
    omega
  rw [swarPairsBySub, swarPairs, sub_eq_iff_eq_add]
  exact hx

end

/-! ## The last step -/

/-- The multiply sums all lanes into the top byte, where their sum fits in it. -/
theorem swarSum_eq {n l b : Nat} {k : SwarMasks n} (hk : IsSwarMasks k (l + 1)) {y : BitVec n} {f : Nat → Nat}
    (h : HasLanes y 8 (l + 1) b f) (hsum : ∑ k ∈ Finset.range (l + 1), f k < 2 ^ 8) :
    swarSum k y = ∑ k ∈ Finset.range (l + 1), f k := by
  have hlt : ∀ k < l + 1, prefixSum f k < 2 ^ 8 := fun k hk =>
    (Finset.sum_le_sum_of_subset (Finset.range_mono (Nat.succ_le_of_lt hk))).trans_lt hsum
  have hproduct : (y * k.h01).toNat = lanes 8 (prefixSum f) (l + 1) := by
    rw [BitVec.toNat_mul, h.value, hk.h01, h.width, lanes_mul_ones 8 f (l + 1), Nat.mod_eq_of_lt (lanes_lt hlt)]
  have htop : n - 8 = 8 * l := by
    have hn := h.width
    omega
  rw [swarSum, BitVec.toNat_ushiftRight, Nat.shiftRight_eq_div_pow, hproduct, htop,
    lanes_succ_div fun k hk => hlt k (Nat.lt_succ_of_lt hk)]
  rfl

/-- The final mask of the explicit sums keeps the lowest byte. -/
theorem HasLanes.low_byte {n l b : Nat} {y m : BitVec n} {f : Nat → Nat} (h : HasLanes y 8 (1 + l) b f) (hb : b < 2 ^ 7)
    (hm : m.toNat = 2 ^ 7 - 1) : (y &&& m).toNat = f 0 := by
  have hlow := lanes_mod (l := l) (h.lt 0)
  have h0 := (h.bound 0).trans_lt hb
  rw [← h.value] at hlow
  rw [BitVec.toNat_and, hm, Nat.and_two_pow_sub_one_eq_mod]
  omega

/-- The explicit sums at N = 32 add the four bytes into the lowest. -/
theorem swarSumByAdds32_eq {y : Half} {f : Nat → Nat} (h : HasLanes y 8 4 8 f) :
    swarSumByAdds32 y = ∑ k ∈ Finset.range 4, f k := by
  have h8 := h.add (h.shift 1) (by decide)
  have h16 := h8.add (h8.shift 2) (by decide)
  have hlow := h16.low_byte (l := 3) (m := 0x7F#32) (by decide) rfl
  refine Eq.trans hlow ?_
  simp only [Finset.sum_range_succ, Finset.sum_range_zero, Nat.zero_add, Nat.reduceAdd]
  omega

/-- The explicit sums at N = 64 add the eight bytes into the lowest. -/
theorem swarSumByAdds64_eq {y : Word} {f : Nat → Nat} (h : HasLanes y 8 8 8 f) :
    swarSumByAdds64 y = ∑ k ∈ Finset.range 8, f k := by
  have h8 := h.add (h.shift 1) (by decide)
  have h16 := h8.add (h8.shift 2) (by decide)
  have h32 := h16.add (h16.shift 4) (by decide)
  have hlow := h32.low_byte (l := 7) (m := 0x7F#64) (by decide) rfl
  refine Eq.trans hlow ?_
  simp only [Finset.sum_range_succ, Finset.sum_range_zero, Nat.zero_add, Nat.reduceAdd]
  omega

/-! ## Both widths -/

/-- The bits of a byte, byte by byte, sum to the bits of the value. -/
theorem sum_byteCounts {n : Nat} (x : BitVec n) (l : Nat) :
    ∑ j ∈ Finset.range l, pairSum (pairSum (pairSum fun k => (x.getLsbD k).toNat)) j =
      bitsBelow x (2 * (2 * (2 * l))) := by
  rw [sum_pairSum, sum_pairSum, sum_pairSum, bitsBelow]

/-- The masks at N = 32 (R55). -/
theorem isSwarMasks_swar32 : IsSwarMasks swar32 4 := ⟨rfl, rfl, rfl, rfl⟩

/-- The masks at N = 64 (R55). -/
theorem isSwarMasks_swar64 : IsSwarMasks swar64 8 := ⟨rfl, rfl, rfl, rfl⟩

/-! ## The obligation -/

/-- Settles O45: the tree holds the bit counts of the bytes, and either last step gives their sum. -/
theorem popcountTreeIsExact : Obligations.PopcountTreeIsExact := by
  refine ⟨fun x => ?_, fun x => ?_⟩
  · have htree := hasLanes_swarTree isSwarMasks_swar32 (hasLanes_bits x)
    have hsum := sum_byteCounts x 4
    have hlt := (hsum.trans_le (bitsBelow_le x _)).trans_lt (by decide : 32 < 2 ^ 8)
    refine ⟨?_, swarPairsBySub_eq isSwarMasks_swar32 (hasLanes_bits x), ?_⟩
    · exact (swarSum_eq isSwarMasks_swar32 htree hlt).trans hsum
    · exact (swarSumByAdds32_eq htree).trans hsum
  · have htree := hasLanes_swarTree isSwarMasks_swar64 (hasLanes_bits x)
    have hsum := sum_byteCounts x 8
    have hlt := (hsum.trans_le (bitsBelow_le x _)).trans_lt (by decide : 64 < 2 ^ 8)
    refine ⟨?_, swarPairsBySub_eq isSwarMasks_swar64 (hasLanes_bits x), ?_⟩
    · exact (swarSum_eq isSwarMasks_swar64 htree hlt).trans hsum
    · exact (swarSumByAdds64_eq htree).trans hsum

end Sys2Proof.Machine
end
